-- ==== Sys2Proof/Config.lean ====
section
/-! DEFINITION. The fixed parameters of the hardware (spec/00_scope.md R7) and the parameters the spec fixes by
decision (R8). The rounding of R130 (half away from zero) and the tie-break of R112 (first value to reach the winning
count) are built into `Sys2Proof.Machine.rhaz` and `Sys2Proof.Machine.select`; the product of R182 is exact, which is
`DEC_ACC_W` at any width of 17 or more (R8, U7). The spec leaves the value of no result open, so there is no free
value here. -/

namespace Sys2Proof.Config

/-- `FRAME_LEN` (R7). -/
abbrev frameLen : Nat := 16

/-- `DATA_MAX`, the data bytes of a full block (R7). -/
abbrev dataMax : Nat := 8

/-- `CLZ_CLAMP` (R7). -/
abbrev clzClamp : Nat := 13

/-- `NEEDED_BASE` (R7). -/
abbrev neededBase : Nat := 14

/-- `NIB_MIN` (R7). -/
abbrev nibMin : Int := -8

/-- `NIB_MAX` (R7). -/
abbrev nibMax : Int := 7

/-- `SHIFT_MIN` (R7). -/
abbrev shiftMin : Nat := 1

/-- `SHIFT_MAX` (R7). -/
abbrev shiftMax : Nat := 14

/-- The greatest divisor exponent `k` of `RHAZ` (R130). -/
abbrev divisorMax : Nat := 13

/-- The least value of a sample of `SAMPLE_W` bits (R7). -/
abbrev sampleMin : Int := -32768

/-- The greatest value of a sample of `SAMPLE_W` bits (R7). -/
abbrev sampleMax : Int := 32767

/-- `HDR_LOW`, the low nibble of every emitted header (R7). -/
abbrev hdrLow : BitVec 4 := 0#4

/-- `PAD_NIBBLE` (R8, D5). -/
abbrev padNibble : BitVec 4 := 0#4

/-- `RSVD_SHIFTS` (R8, D7). -/
abbrev rsvdShifts : List Nat := [0, 15]

end Sys2Proof.Config
end

