-- ==== Sys2Proof/Word.lean ====
section
/-! DEFINITION. The words of the BRR codec core and the tokens of its four ports
(spec/00_scope.md R11, spec/20_memory.md R51). -/

namespace Sys2Proof

/-- A sample `i16` as its 16-bit two's-complement pattern `bits16(s)`; its value is `BitVec.toInt` (R7, R11). -/
abbrev Sample := BitVec 16

/-- A byte `u8` of a block (R11). -/
abbrev Byte := BitVec 8

/-- A nibble pattern `u4` (R11). -/
abbrev Nib := BitVec 4

/-- The cause of a decoder fault, `dec_cause` (R31, R221). -/
inductive DecCause where
  | none
  | reservedShift
  | overflow
deriving DecidableEq, Repr

/-- A token on `enc_out`: `Byte(b)` or `End` (R51). -/
inductive OutToken where
  | byte (b : Byte)
  | eos
deriving DecidableEq, Repr

/-- A response on `dec_out`: `Sample(s)`, `Exhausted` or `Fault(cause, info)` (R51, R234). -/
inductive Response where
  | sample (s : Sample)
  | exhausted
  | fault (cause : DecCause) (info : BitVec 12)
deriving DecidableEq, Repr

/-- The formats whose bits select an operation: T17 on `enc_in` (R89), H and D on `dec_in` (R82, R83),
the zero-width request Q0 on `dec_out` (R91). -/
inductive Format where
  | t17
  | header
  | data
  | q0
deriving DecidableEq, Repr

end Sys2Proof
end

