-- ==== Sys2Proof/Syntax.lean ====
section
/-! DEFINITION. The operations of the codec core, one constructor per row of spec/opcode_table.json in its order
(spec/30_encoding.md R80). Ignored bits of an encoding (`ENC.END`, the header's low nibble) are operands, so that no bit
of an encoding is lost. -/

namespace Sys2Proof

inductive Instr where
  /-- `MAG16` (R110). -/
  | mag16 (s : Sample)
  /-- `NEEDED` (R111). -/
  | needed (s : Sample)
  /-- `SELECT` (R112). -/
  | select (f : List Sample)
  /-- `RHAZ` (R130). -/
  | rhaz (s : Sample) (k : Nat)
  /-- `QUANT` (R132). -/
  | quant (s : Sample) (sh : Nat)
  /-- `NIB4` (R133). -/
  | nib4 (q : Int)
  /-- `HDR` (R150). -/
  | hdr (sh : Nat)
  /-- `PACK` (R151). -/
  | pack (a b : Nib)
  /-- `PACKSEQ` (R152). -/
  | packSeq (ns : List Nib)
  /-- `encode_frame` (R153). -/
  | encodeFrame (f : List Sample)
  /-- `encode` (R163). -/
  | encode (xs : List Sample)
  /-- `EMIT` (R158). -/
  | emit (cnt : Nat)
  /-- `ENC.PUSH` (R159). -/
  | encPush (s : Sample)
  /-- `ENC.END` (R160, R89). -/
  | encEnd (ignored : BitVec 16)
  /-- `SHIFTOF` (R180). -/
  | shiftOf (h : Byte)
  /-- `SEXT4` (R181). -/
  | sext4 (n : Nib)
  /-- `RECON` (R182). -/
  | recon (n : Nib) (sh : Nat)
  /-- `UNPACK` (R185). -/
  | unpack (b : Byte) (sh : Nat)
  /-- `decode` (R190). -/
  | decode (bs : List Byte)
  /-- `REFILL` (R187). -/
  | refill
  /-- `DEC.PULL` (R188). -/
  | decPull
  /-- `HDR.S0` (R82, R222). -/
  | hdrS0 (low : Nib)
  /-- `HDR.S1` (R82, R88). -/
  | hdrS1 (low : Nib)
  /-- `HDR.S2` (R82, R88). -/
  | hdrS2 (low : Nib)
  /-- `HDR.S3` (R82, R88). -/
  | hdrS3 (low : Nib)
  /-- `HDR.S4` (R82, R88). -/
  | hdrS4 (low : Nib)
  /-- `HDR.S5` (R82, R88). -/
  | hdrS5 (low : Nib)
  /-- `HDR.S6` (R82, R88). -/
  | hdrS6 (low : Nib)
  /-- `HDR.S7` (R82, R88). -/
  | hdrS7 (low : Nib)
  /-- `HDR.S8` (R82, R88). -/
  | hdrS8 (low : Nib)
  /-- `HDR.S9` (R82, R88). -/
  | hdrS9 (low : Nib)
  /-- `HDR.S10` (R82, R88). -/
  | hdrS10 (low : Nib)
  /-- `HDR.S11` (R82, R88). -/
  | hdrS11 (low : Nib)
  /-- `HDR.S12` (R82, R88). -/
  | hdrS12 (low : Nib)
  /-- `HDR.S13` (R82, R88). -/
  | hdrS13 (low : Nib)
  /-- `HDR.S14` (R82, R88). -/
  | hdrS14 (low : Nib)
  /-- `HDR.S15` (R82, R222). -/
  | hdrS15 (low : Nib)
  /-- `DATA` (R83). -/
  | data (hi lo : Nib)
deriving DecidableEq, Repr

end Sys2Proof
end

