-- ==== Sys2Proof/WellFormed.lean ====
section
/-! DEFINITION. Which operations have operands inside the domains the spec gives them: frames of 1 to 16 samples
(R112, R152, R153, R158), `k` 0 to 13 (R130), shift exponents 1 to 14 (R132, R137, R150, R182, R185), nibble values
-8 to 7 (R133). An operation outside its domain is refused by its meaning (spec/93_implementation_defined.md U14). -/

namespace Sys2Proof

/-- The operands of `i` lie in the domain the operation's rule gives them (U14, D27). -/
def wellFormed (i : Instr) : Bool :=
  match i with
  | .mag16 _ => true
  | .needed _ => true
  | .select f => decide (1 ≤ f.length ∧ f.length ≤ Config.frameLen)
  | .rhaz _ k => decide (k ≤ Config.divisorMax)
  | .quant _ sh => decide (Config.shiftMin ≤ sh ∧ sh ≤ Config.shiftMax)
  | .nib4 q => decide (Config.nibMin ≤ q ∧ q ≤ Config.nibMax)
  | .hdr sh => decide (Config.shiftMin ≤ sh ∧ sh ≤ Config.shiftMax)
  | .pack _ _ => true
  | .packSeq ns => decide (1 ≤ ns.length ∧ ns.length ≤ Config.frameLen)
  | .encodeFrame f => decide (1 ≤ f.length ∧ f.length ≤ Config.frameLen)
  | .encode _ => true
  | .emit cnt => decide (1 ≤ cnt ∧ cnt ≤ Config.frameLen)
  | .encPush _ => true
  | .encEnd _ => true
  | .shiftOf _ => true
  | .sext4 _ => true
  | .recon _ sh => decide (Config.shiftMin ≤ sh ∧ sh ≤ Config.shiftMax)
  | .unpack _ sh => decide (Config.shiftMin ≤ sh ∧ sh ≤ Config.shiftMax)
  | .decode _ => true
  | .refill => true
  | .decPull => true
  | .hdrS0 _ => true
  | .hdrS1 _ => true
  | .hdrS2 _ => true
  | .hdrS3 _ => true
  | .hdrS4 _ => true
  | .hdrS5 _ => true
  | .hdrS6 _ => true
  | .hdrS7 _ => true
  | .hdrS8 _ => true
  | .hdrS9 _ => true
  | .hdrS10 _ => true
  | .hdrS11 _ => true
  | .hdrS12 _ => true
  | .hdrS13 _ => true
  | .hdrS14 _ => true
  | .hdrS15 _ => true
  | .data _ _ => true

end Sys2Proof
end

