-- ==== Sys2Proof/Decode.lean ====
section
/-! DEFINITION. Decoding and encoding: the fields of a byte (R82, R83), the port formats T17, H, D, Q0 that select an
operation (R89, R92), the table's mask and match rows (R92), and the token formats T9 and T18 (R90, R91). -/

namespace Sys2Proof

/-- `b[7:4]` (R82, R83). -/
def hiNib (b : Byte) : Nib := b.extractLsb' 4 4

/-- `b[3:0]` (R82, R83). -/
def loNib (b : Byte) : Nib := b.extractLsb' 0 4

/-- `{a, b}` of two nibbles, `a` in the more significant half (R11, R151). -/
def joinNibs (a b : Nib) : Byte := a ++ b

/-- Why a word is no instruction of its format. -/
inductive DecodeError where
  /-- The word has a bit above the format's width. -/
  | tooWide (f : Format)
deriving DecidableEq, Repr

/-- What decoding a word of a format gives: an operation, or a rejection by name. -/
inductive Decoded where
  | instr (i : Instr)
  | reject (e : DecodeError)
deriving DecidableEq, Repr

/-- The width of a format in bits (R82, R83, R89, R91). -/
def formatWidth (f : Format) : Nat :=
  match f with
  | .t17 => 17
  | .header => 8
  | .data => 8
  | .q0 => 0

/-- Format T17 on `enc_in`: bit 16 clear is `ENC.PUSH` of bits [15:0], set is `ENC.END` with bits [15:0] ignored (R89). -/
def decodeT17 (w : BitVec 17) : Instr :=
  if w.getLsbD 16 then .encEnd (w.extractLsb' 0 16) else .encPush (w.extractLsb' 0 16)

/-- Format H, a byte where a header is due: the row is its high nibble (R82, R88, R92). -/
def decodeHeader (b : Byte) : Instr :=
  match (hiNib b).toNat with
  | 0 => .hdrS0 (loNib b)
  | 1 => .hdrS1 (loNib b)
  | 2 => .hdrS2 (loNib b)
  | 3 => .hdrS3 (loNib b)
  | 4 => .hdrS4 (loNib b)
  | 5 => .hdrS5 (loNib b)
  | 6 => .hdrS6 (loNib b)
  | 7 => .hdrS7 (loNib b)
  | 8 => .hdrS8 (loNib b)
  | 9 => .hdrS9 (loNib b)
  | 10 => .hdrS10 (loNib b)
  | 11 => .hdrS11 (loNib b)
  | 12 => .hdrS12 (loNib b)
  | 13 => .hdrS13 (loNib b)
  | 14 => .hdrS14 (loNib b)
  | _ => .hdrS15 (loNib b)

/-- Format D, a byte where a data byte is due: every value is legal (R83, R88). -/
def decodeData (b : Byte) : Instr := .data (hiNib b) (loNib b)

/-- A word of a format as an operation; a word wider than its format is rejected by name (R89, R91, R92). -/
def decodeWord (f : Format) (n : Nat) : Decoded :=
  if n < 2 ^ formatWidth f then
    match f with
    | .t17 => .instr (decodeT17 (BitVec.ofNat 17 n))
    | .header => .instr (decodeHeader (BitVec.ofNat 8 n))
    | .data => .instr (decodeData (BitVec.ofNat 8 n))
    | .q0 => .instr .decPull
  else .reject (.tooWide f)

/-- The word that selects an operation and the format it is read in. Rows of kind `prim`, `func` and `int` are selected
by no bits (R92) and have none. -/
def encode (i : Instr) : Option (Format × Nat) :=
  match i with
  | .mag16 _ => none
  | .needed _ => none
  | .select _ => none
  | .rhaz _ _ => none
  | .quant _ _ => none
  | .nib4 _ => none
  | .hdr _ => none
  | .pack _ _ => none
  | .packSeq _ => none
  | .encodeFrame _ => none
  | .encode _ => none
  | .emit _ => none
  | .encPush s => some (.t17, s.toNat)
  | .encEnd ignored => some (.t17, 2 ^ 16 + ignored.toNat)
  | .shiftOf _ => none
  | .sext4 _ => none
  | .recon _ _ => none
  | .unpack _ _ => none
  | .decode _ => none
  | .refill => none
  | .decPull => some (.q0, 0)
  | .hdrS0 low => some (.header, 0 * 16 + low.toNat)
  | .hdrS1 low => some (.header, 1 * 16 + low.toNat)
  | .hdrS2 low => some (.header, 2 * 16 + low.toNat)
  | .hdrS3 low => some (.header, 3 * 16 + low.toNat)
  | .hdrS4 low => some (.header, 4 * 16 + low.toNat)
  | .hdrS5 low => some (.header, 5 * 16 + low.toNat)
  | .hdrS6 low => some (.header, 6 * 16 + low.toNat)
  | .hdrS7 low => some (.header, 7 * 16 + low.toNat)
  | .hdrS8 low => some (.header, 8 * 16 + low.toNat)
  | .hdrS9 low => some (.header, 9 * 16 + low.toNat)
  | .hdrS10 low => some (.header, 10 * 16 + low.toNat)
  | .hdrS11 low => some (.header, 11 * 16 + low.toNat)
  | .hdrS12 low => some (.header, 12 * 16 + low.toNat)
  | .hdrS13 low => some (.header, 13 * 16 + low.toNat)
  | .hdrS14 low => some (.header, 14 * 16 + low.toNat)
  | .hdrS15 low => some (.header, 15 * 16 + low.toNat)
  | .data hi lo => some (.data, hi.toNat * 16 + lo.toNat)

/-- The mnemonic of an operation in spec/opcode_table.json (R80). -/
def mnemonicOf (i : Instr) : String :=
  match i with
  | .mag16 _ => "MAG16"
  | .needed _ => "NEEDED"
  | .select _ => "SELECT"
  | .rhaz _ _ => "RHAZ"
  | .quant _ _ => "QUANT"
  | .nib4 _ => "NIB4"
  | .hdr _ => "HDR"
  | .pack _ _ => "PACK"
  | .packSeq _ => "PACKSEQ"
  | .encodeFrame _ => "encode_frame"
  | .encode _ => "encode"
  | .emit _ => "EMIT"
  | .encPush _ => "ENC.PUSH"
  | .encEnd _ => "ENC.END"
  | .shiftOf _ => "SHIFTOF"
  | .sext4 _ => "SEXT4"
  | .recon _ _ => "RECON"
  | .unpack _ _ => "UNPACK"
  | .decode _ => "decode"
  | .refill => "REFILL"
  | .decPull => "DEC.PULL"
  | .hdrS0 _ => "HDR.S0"
  | .hdrS1 _ => "HDR.S1"
  | .hdrS2 _ => "HDR.S2"
  | .hdrS3 _ => "HDR.S3"
  | .hdrS4 _ => "HDR.S4"
  | .hdrS5 _ => "HDR.S5"
  | .hdrS6 _ => "HDR.S6"
  | .hdrS7 _ => "HDR.S7"
  | .hdrS8 _ => "HDR.S8"
  | .hdrS9 _ => "HDR.S9"
  | .hdrS10 _ => "HDR.S10"
  | .hdrS11 _ => "HDR.S11"
  | .hdrS12 _ => "HDR.S12"
  | .hdrS13 _ => "HDR.S13"
  | .hdrS14 _ => "HDR.S14"
  | .hdrS15 _ => "HDR.S15"
  | .data _ _ => "DATA"

/-- A row of the operation table that bits select: `v &&& mask = pattern` (R92). -/
structure OpRow where
  mnemonic : String
  format : Format
  mask : Nat
  pattern : Nat
deriving DecidableEq, Repr

/-- The rows of kind `wire` and `port` with their mask and match (R92). -/
def selectableRows : List OpRow :=
  [ ⟨"ENC.PUSH", .t17, 0x10000, 0x00000⟩, ⟨"ENC.END", .t17, 0x10000, 0x10000⟩, ⟨"DEC.PULL", .q0, 0x0, 0x0⟩,
    ⟨"DATA", .data, 0x00, 0x00⟩ ] ++
  [ ⟨"HDR.S0", .header, 0xF0, 0x00⟩, ⟨"HDR.S1", .header, 0xF0, 0x10⟩, ⟨"HDR.S2", .header, 0xF0, 0x20⟩, ⟨"HDR.S3", .header, 0xF0, 0x30⟩ ] ++
  [ ⟨"HDR.S4", .header, 0xF0, 0x40⟩, ⟨"HDR.S5", .header, 0xF0, 0x50⟩, ⟨"HDR.S6", .header, 0xF0, 0x60⟩, ⟨"HDR.S7", .header, 0xF0, 0x70⟩ ] ++
  [ ⟨"HDR.S8", .header, 0xF0, 0x80⟩, ⟨"HDR.S9", .header, 0xF0, 0x90⟩, ⟨"HDR.S10", .header, 0xF0, 0xA0⟩, ⟨"HDR.S11", .header, 0xF0, 0xB0⟩ ] ++
  [ ⟨"HDR.S12", .header, 0xF0, 0xC0⟩, ⟨"HDR.S13", .header, 0xF0, 0xD0⟩, ⟨"HDR.S14", .header, 0xF0, 0xE0⟩, ⟨"HDR.S15", .header, 0xF0, 0xF0⟩ ]

/-- The mnemonics of the rows of format `f` that the word `w` selects (R92). -/
def selectedRows (f : Format) (w : Nat) : List String :=
  (selectableRows.filter fun r => r.format = f ∧ w &&& r.mask = r.pattern).map OpRow.mnemonic

/-- Format T9 read on `dec_in`: `none` is `End` (bit 8 set, bits [7:0] ignored), else the byte (R90). -/
def readT9 (w : BitVec 9) : Option Byte :=
  if w.getLsbD 8 then none else some (w.extractLsb' 0 8)

/-- Format T9 of a token put on `enc_out`; `End` has bits [7:0] zero (R90). -/
def t9Word (t : OutToken) : BitVec 9 :=
  match t with
  | .byte b => 0#1 ++ b
  | .eos => 1#1 ++ 0#8

/-- The 2-bit code of `dec_cause` (R31, R221). -/
def causeCode (c : DecCause) : BitVec 2 :=
  match c with
  | .none => 0#2
  | .reservedShift => 1#2
  | .overflow => 2#2

/-- Format T18 of a response on `dec_out`: `kind` in [17:16], `payload` in [15:0] (R91). -/
def t18Word (r : Response) : BitVec 18 :=
  match r with
  | .sample s => 0#2 ++ s
  | .exhausted => 1#2 ++ 0#16
  | .fault c info => 2#2 ++ (causeCode c ++ (0#2 ++ info))

/-- The operation in a word laid out as spec/opcode_table.json numbers its bits. Zero bits are the zero-width request
Q0; up to 8 bits are a byte where a header is due, as it is after reset (`DATA` has the same bits and is told from a
header by position only, R83); more bits are a T17 word. -/
def decodeTableWord (nbits w : Nat) : Option Instr :=
  let f : Format := if nbits = 0 then .q0 else if nbits ≤ 8 then .header else .t17
  if nbits ≤ 24 then
    match decodeWord f w with
    | .instr i => some i
    | .reject _ => none
  else none

end Sys2Proof
end

