-- ==== Sys2Proof/Machine/State.lean ====
section
/-! DEFINITION. The state of the codec core as plain data (spec/10_state.md R22 to R32), the environment's four streams
and turns (R21, R50, R63), the state at reset (R250), and the reasons a step can stop. -/

namespace Sys2Proof.Machine

/-- `dec_state` (R30). -/
inductive DecState where
  | empty
  | buffered
  | exhausted
  | faulted
deriving DecidableEq, Repr

/-- Where a pull that is carried out token by token stands: the locals of `REFILL` (R187). -/
inductive Refill where
  /-- No operation of `DEC` is in progress. -/
  | idle
  /-- The next `Take` is the header's. -/
  | header
  /-- The header `h` has been taken, and the values `V` so far, two for each data byte taken. -/
  | data (h : Byte) (vs : List Int)
deriving DecidableEq, Repr

/-- Who moves next at the block's boundary (R20, R63, R250). -/
inductive Turn where
  /-- The token at the head of `enc_in` is offered to `ENC` (R52). -/
  | enc
  /-- The consumer requests a pull, carried out as one step (R55, D28). -/
  | pull
  /-- The consumer requests a pull, carried out with one `Take` a step (R10, R56). -/
  | pullByToken
  /-- `DEC` goes on with the pull in progress by one `Take`. -/
  | dec
  /-- `RESET ENC` (R250). -/
  | resetEnc
  /-- `RESET DEC` (R250). -/
  | resetDec
deriving DecidableEq, Repr

/-- The value an operation of kind `prim` or `func` returns to its caller (R80). -/
inductive Value where
  | nothing
  | u16 (u : BitVec 16)
  | num (n : Int)
  | nib (n : Nib)
  | byte (b : Byte)
  | bytes (bs : List Byte)
  | pair (a b : Int)
  | stream (ys : List Sample) (o : Response)
deriving DecidableEq, Repr

/-- The whole state. Log entries 1 to 4 say which fields the spec names and which are the model's own. -/
structure State where
  /-- `FB[0..15]` (R22). -/
  fb : Vector Sample 16
  /-- `enc_n` (R23). -/
  encN : Fin 16
  /-- `enc_done` (R24). -/
  encDone : Bool
  /-- `SB[0..15]` (R27). -/
  sb : Vector Sample 16
  /-- `dec_cnt` (R28). -/
  decCnt : Fin 17
  /-- `dec_rd` (R29). -/
  decRd : Fin 16
  /-- `dec_state` (R30). -/
  decState : DecState
  /-- `dec_cause` (R31). -/
  decCause : DecCause
  /-- `dec_info` (R32). -/
  decInfo : BitVec 12
  /-- The pull in progress, if one is carried out token by token. -/
  refill : Refill
  /-- The T17 words waiting on `enc_in` (R52, R89). -/
  encIn : List (BitVec 17)
  /-- The tokens put on `enc_out`, oldest first (R53). -/
  encOut : List OutToken
  /-- The T9 words waiting on `dec_in` (R54, R90). -/
  decIn : List (BitVec 9)
  /-- The responses given on `dec_out`, oldest first (R55). -/
  decOut : List Response
  /-- Who moves next, in order. -/
  turns : List Turn
  /-- The value the last operation of kind `prim` or `func` returned. -/
  result : Value
deriving DecidableEq, Repr

/-- The machine right after `RESET ENC` and `RESET DEC` with nothing on any port (R250, table of 10_state.md section
10). DESIGN CHOICE: `fb` and `sb`, unspecified in R22 and R27, hold zeros (log entry 1); the streams, `turns`, `refill`
and `result` are empty (log entries 2 to 4). -/
def State.reset : State where
  fb := Vector.replicate 16 0#16
  encN := 0
  encDone := false
  sb := Vector.replicate 16 0#16
  decCnt := 0
  decRd := 0
  decState := .empty
  decCause := .none
  decInfo := 0#12
  refill := .idle
  encIn := []
  encOut := []
  decIn := []
  decOut := []
  turns := []
  result := .nothing

/-- Why the machine stops with a fault. The decoder's own faults are no member: they are next states (R226). -/
inductive Fault where
  /-- Raised by `DEC.PULL` where `SB[dec_rd]` is not one of the valid entries (`dec_rd >= dec_cnt`): "reading it is an
  error of the model" (R11, R27). Safe: the machine stops where the spec gives no value, and no run from reset reaches
  it (R33). -/
  | unspecifiedEntry
deriving DecidableEq, Repr

/-- Why an operation or a turn has no step. Each is the spec's own refusal; all are safe. -/
inductive Refusal where
  /-- An operation that has no meaning yet, raised by `exec` only. Safe. -/
  | notModelled (mnemonic : String)
  /-- `SELECT`, `PACKSEQ` or `encode_frame` of a sequence that is not 1 to 16 long (R116 (h), R152, R153, U14). Safe. -/
  | frameLength
  /-- `RHAZ` with `k` outside 0 to 13 (R130, U14). Safe. -/
  | divisorRange
  /-- `QUANT`, `HDR`, `RECON` or `UNPACK` with `sh` outside 1 to 14 (R137, R150, R182, R185, U14). Safe. -/
  | shiftRange
  /-- `NIB4` of a value outside -8 to 7 (R133). Safe. -/
  | nibbleRange
  /-- `EMIT` of a count that is not the number of valid entries of `FB` (R158). Safe. -/
  | emitCount
  /-- `ENC.PUSH` or `ENC.END` with `enc_done = 1` (R161, U9). Safe. -/
  | encoderFinished
  /-- `REFILL` in another state than `EMPTY`, or while one is in progress (R187). Safe. -/
  | refillNotEmpty
  /-- `DEC.PULL` while a pull is in progress: no second pull starts before the answer (R61, D28). Safe. -/
  | pullInProgress
  /-- A header byte where no header is due, or a data byte where no data byte is due (R83, R189). Safe. -/
  | bytePosition
  /-- `RESET DEC` while a pull is in progress (R252, U11). Safe. -/
  | resetInsideOperation
deriving DecidableEq, Repr

end Sys2Proof.Machine
end

