-- ==== Sys2Proof/Machine/Flags.lean ====
section
/-! DEFINITION. The flag-like state (spec/10_state.md R36): what reads `enc_done`, `dec_state`, `dec_cause`, the status
outputs (R37) and the end of a run (R270). No primitive sets a flag (R36). -/

namespace Sys2Proof.Machine

/-- The 2-bit code of `dec_state` (R30). -/
def decStateCode (d : DecState) : BitVec 2 :=
  match d with
  | .empty => 0#2
  | .buffered => 1#2
  | .exhausted => 2#2
  | .faulted => 3#2

/-- The read-only status outputs (R37). -/
structure Status where
  encN : BitVec 4
  encDone : Bool
  decState : BitVec 2
  decCause : BitVec 2
  decInfo : BitVec 12
  decRd : BitVec 4
  decCnt : BitVec 5
deriving DecidableEq, Repr

/-- What the host reads on the status outputs; reading has no side effect (R37). -/
def statusOf (s : State) : Status where
  encN := BitVec.ofNat 4 s.encN.val
  encDone := s.encDone
  decState := decStateCode s.decState
  decCause := causeCode s.decCause
  decInfo := s.decInfo
  decRd := BitVec.ofNat 4 s.decRd.val
  decCnt := BitVec.ofNat 5 s.decCnt.val

/-- A run of `ENC` is over (R270). -/
def encOver (s : State) : Bool := s.encDone

/-- A run of `DEC` is over, well or badly (R270). -/
def decOver (s : State) : Bool := s.decState = .exhausted ∨ s.decState = .faulted

/-- `dec_info`: `{index, header byte}` (R32, R187). -/
def faultInfo (index : Nat) (h : Byte) : BitVec 12 := BitVec.ofNat 4 index ++ h

end Sys2Proof.Machine
end

