-- ==== Sys2Proof/Machine/Operands.lean ====
section
/-! DEFINITION. Operands: the arithmetic of the notation (spec/00_scope.md R11) and the domains the rules give their
operands (spec/93_implementation_defined.md U14). -/

namespace Sys2Proof.Machine

/-- `not16(u)` (R11). -/
def not16 (u : BitVec 16) : BitVec 16 := ~~~u

/-- The zero bits of `u` from bit `n - 1` downward before the first one bit. -/
def leadingZeros (u : BitVec 16) (n : Nat) : Nat :=
  match n with
  | 0 => 0
  | n + 1 => if u.getLsbD n then 0 else 1 + leadingZeros u n

/-- `clz16(u)`, 16 for zero (R11). -/
def clz16 (u : BitVec 16) : Nat := leadingZeros u 16

/-- `clamp(v, lo, hi)` (R11). -/
def clamp (v lo hi : Int) : Int := max lo (min hi v)

/-- Whether a value is an `i16` (R7, R187). -/
def inI16 (v : Int) : Bool := decide (Config.sampleMin ≤ v ∧ v ≤ Config.sampleMax)

/-- The sample with the value `v`, for `v` in `i16` (R11). -/
def toSample (v : Int) : Sample := BitVec.ofInt 16 v

/-- A frame has 1 to 16 entries (R112, R152, R153). -/
def frameOk (n : Nat) : Bool := decide (1 ≤ n ∧ n ≤ Config.frameLen)

/-- `k` of `RHAZ` is 0 to 13 (R130). -/
def divisorOk (k : Nat) : Bool := decide (k ≤ Config.divisorMax)

/-- A shift exponent operand is 1 to 14 (R132, R137, R150, R182, R185). -/
def shiftOk (sh : Nat) : Bool := decide (Config.shiftMin ≤ sh ∧ sh ≤ Config.shiftMax)

/-- A nibble value is -8 to 7 (R133). -/
def nibbleOk (q : Int) : Bool := decide (Config.nibMin ≤ q ∧ q ≤ Config.nibMax)

/-- The shift fields the decoder faults on, 0 and 15 (R8, R222). -/
def reservedShift (sh : Nat) : Bool := Config.rsvdShifts.contains sh

end Sys2Proof.Machine
end

