-- ==== Sys2Proof/Machine/Ops.lean ====
section
/-! DEFINITION. The named operations over the ports and the two buffers (spec/20_memory.md R50 to R56), raising a decoder
fault (spec/60_exceptions.md R226) and the resets, the only way out of one (R227, spec/70_reset_and_hazards.md R250). -/

namespace Sys2Proof.Machine

/-- What a step, a meaning or a shared operation answers. -/
abbrev Answer := Host.Outcome State Fault Refusal

/-- A primitive or function operation returns `v` to its caller; it changes no state of the block (R36, R80). -/
def giveResult (v : Value) (s : State) : State := { s with result := v }

/-- An operation returns `v` if its operands are in their domain, and is refused otherwise (U14, D27). -/
def returnsIf (ok : Bool) (why : Refusal) (v : Value) (s : State) : Answer :=
  if ok then .next (giveResult v s) else .refused why

/-- `Put(enc_out, t)` for each `t` of `ts` in order (R11, R53). -/
def putTokens (ts : List OutToken) (s : State) : State := { s with encOut := s.encOut ++ ts }

/-- The answer to a pull on `dec_out` (R55). -/
def respond (r : Response) (s : State) : State := { s with decOut := s.decOut ++ [r] }

/-- `Take` on the words waiting on `dec_in`: a byte is removed, `End` removes nothing, and a source with no word left
answers `End` (R54, R57). DESIGN CHOICE: an `End` stays at the head across `RESET DEC` too, and no turn connects a new
stream: R251 leaves open whether the source still answers `End` then; a new stream is a state with another `decIn`
(log entry 18). -/
def takeWord (ws : List (BitVec 9)) : Option Byte × List (BitVec 9) :=
  match ws with
  | [] => (none, [])
  | w :: rest =>
    match readT9 w with
    | none => (none, w :: rest)
    | some b => (some b, rest)

/-- Up to `n` `Take`s, stopping at the first `End`: the bytes taken and the words that stay (R187). -/
def takeBytes (n : Nat) (ws : List (BitVec 9)) : List Byte × List (BitVec 9) :=
  match n with
  | 0 => ([], ws)
  | n + 1 =>
    match takeWord ws with
    | (none, rest) => ([], rest)
    | (some b, rest) => (b :: (takeBytes n rest).1, (takeBytes n rest).2)

/-- `FB[enc_n] <- v` (R159). -/
def storeFB (v : Sample) (s : State) : State := { s with fb := s.fb.set s.encN.val v s.encN.isLt }

/-- `[FB[0], ..., FB[cnt-1]]` (R158). -/
def frameOf (cnt : Nat) (s : State) : List Sample := s.fb.toList.take cnt

/-- `SB[j] <- V[j - from]` upward from `j = from`; the entries beyond keep what they held (R187, R226). -/
def storeFrom (start : Nat) (vs : List Int) (sb : Vector Sample 16) : Vector Sample 16 :=
  match vs with
  | [] => sb
  | v :: rest => storeFrom (start + 1) rest (sb.setIfInBounds start (toSample v))

/-- `raise DecFault(cause, info)`: the whole of the fault's entry but the response, which the pull gives (R226). -/
def raiseDecFault (cause : DecCause) (info : BitVec 12) (s : State) : State :=
  { s with decCause := cause, decInfo := info, decState := .faulted, decRd := 0, decCnt := 0 }

/-- `RESET ENC`: streams and `DEC` untouched (R250, R251). DESIGN CHOICE: `FB`, unspecified after reset, keeps what it
held (log entry 5). -/
def resetEnc (s : State) : State := { s with encN := 0, encDone := false }

/-- `RESET DEC`: streams and `ENC` untouched (R250, R251). DESIGN CHOICE: `SB`, unspecified after reset, keeps what it
held (log entry 5). -/
def resetDec (s : State) : State :=
  { s with decState := .empty, decRd := 0, decCnt := 0, decCause := .none, decInfo := 0#12 }

end Sys2Proof.Machine
end

