-- ==== Sys2Proof/Machine/Quant.lean ====
section
/-! DEFINITION. The Nibble Quantizer: `RHAZ`, `QUANT`, `NIB4` (spec/41_quantizer.md R130 to R138). -/

namespace Sys2Proof.Machine

/-- `RHAZ(s, k)`: `s / 2^k` rounded to nearest, a tie away from zero, in the integer form of R131 (R130, D3). -/
def rhaz (x : Sample) (k : Nat) : Int :=
  if k = 0 then x.toInt
  else
    let r : Nat := (x.toInt.natAbs + 2 ^ (k - 1)) / 2 ^ k
    if 0 ≤ x.toInt then r else -r

/-- `QUANT(s, sh)` (R132). -/
def quant (x : Sample) (sh : Nat) : Int := clamp (rhaz x (sh - 1)) Config.nibMin Config.nibMax

/-- `NIB4(q)`: the low 4 bits of the two's-complement pattern of `q` (R133). -/
def nib4 (q : Int) : Nib := BitVec.ofInt 4 q

/-- `RHAZ` (R130); refused for `k` above 13. -/
def execRhaz (x : Sample) (k : Nat) (s : State) : Answer := returnsIf (divisorOk k) .divisorRange (.num (rhaz x k)) s

/-- `QUANT` (R132); refused for `sh` outside 1 to 14 (R137). -/
def execQuant (x : Sample) (sh : Nat) (s : State) : Answer := returnsIf (shiftOk sh) .shiftRange (.num (quant x sh)) s

/-- `NIB4` (R133); refused for a value that is no `i4`. -/
def execNib4 (q : Int) (s : State) : Answer := returnsIf (nibbleOk q) .nibbleRange (.nib (nib4 q)) s

end Sys2Proof.Machine
end

