-- ==== Sys2Proof/Machine/Select.lean ====
section
/-! DEFINITION. The Shift-Exponent Selector: `MAG16`, `NEEDED`, `SELECT` (spec/40_shift_select.md R110 to R117). -/

namespace Sys2Proof.Machine

/-- `MAG16(s)` (R110). -/
def mag16 (s : Sample) : BitVec 16 := if s.toInt < 0 then not16 s else s

/-- `NEEDED(s)` (R111). -/
def needed (s : Sample) : Nat := Config.neededBase - min (clz16 (mag16 s)) Config.clzClamp

/-- The locals of `SELECT`'s loop (R112). The counter `cnt[v]` is the number of times `v` stands in `seen`. -/
structure Tally where
  seen : List Nat
  best : Nat
  bestCnt : Nat
deriving DecidableEq, Repr

/-- One turn of `SELECT`'s loop: count `v`, and let it displace the best value on a strictly greater count (R112). -/
def tallyNext (t : Tally) (v : Nat) : Tally :=
  let c := t.seen.count v + 1
  if t.bestCnt < c then ⟨v :: t.seen, v, c⟩ else ⟨v :: t.seen, t.best, t.bestCnt⟩

/-- The loop of `SELECT(f)` in arrival order (R112). It is called on a non-empty frame only (R116 (h)). -/
def select (f : List Sample) : Nat := ((f.map needed).foldl tallyNext ⟨[], 0, 0⟩).best

/-- `MAG16` (R110). -/
def execMag16 (x : Sample) (s : State) : Answer := .next (giveResult (.u16 (mag16 x)) s)

/-- `NEEDED` (R111). -/
def execNeeded (x : Sample) (s : State) : Answer := .next (giveResult (.num (needed x)) s)

/-- `SELECT` (R112); refused unless the frame has 1 to 16 samples (R116 (h)). -/
def execSelect (f : List Sample) (s : State) : Answer :=
  returnsIf (frameOk f.length) .frameLength (.num (select f)) s

end Sys2Proof.Machine
end

