-- ==== Sys2Proof/Machine/Encoder.lean ====
section
/-! DEFINITION. The Block Encoder: `HDR`, `PACK`, `PACKSEQ`, `encode_frame`, `encode`, `EMIT`, `ENC.PUSH`, `ENC.END`
(spec/42_encoder.md R150 to R166). -/

namespace Sys2Proof.Machine

/-- `HDR(sh)`: `{sh, 0}` in format H (R150). -/
def hdr (sh : Nat) : Byte := joinNibs (BitVec.ofNat 4 sh) Config.hdrLow

/-- `PACK(a, b)`: `{a, b}` in format D (R151). -/
def pack (a b : Nib) : Byte := joinNibs a b

/-- `PACKSEQ(ns)`: pairs in order, a last single nibble with the pad nibble (R152). -/
def packSeq (ns : List Nib) : List Byte :=
  match ns with
  | [] => []
  | [a] => [pack a Config.padNibble]
  | a :: b :: rest => pack a b :: packSeq rest

/-- The nibble patterns of a frame at shift `sh` (R153). -/
def nibblesOf (f : List Sample) (sh : Nat) : List Nib := f.map fun x => nib4 (quant x sh)

/-- `encode_frame(f)` (R153). It is called on 1 to 16 samples only. -/
def encodeFrame (f : List Sample) : List Byte := hdr (select f) :: packSeq (nibblesOf f (select f))

/-- `encode(xs)` over at most `n` frames (R163). -/
def encodeUpTo (n : Nat) (xs : List Sample) : List Byte :=
  match n with
  | 0 => []
  | n + 1 =>
    if xs.isEmpty then []
    else encodeFrame (xs.take Config.frameLen) ++ encodeUpTo n (xs.drop Config.frameLen)

/-- `encode(xs)`: the frames of `xs`, each encoded on its own (R163). There are never more frames than samples. -/
def encodeStream (xs : List Sample) : List Byte := encodeUpTo xs.length xs

/-- What `EMIT(cnt)` does: puts the block of `FB[0..cnt-1]` on `enc_out` and writes no other state (R158). -/
def emitBlock (cnt : Nat) (s : State) : State := putTokens ((encodeFrame (frameOf cnt s)).map .byte) s

/-- `cnt` is the number of valid entries of `FB`: `enc_n`, as `ENC.END` passes it, or 16 when `enc_n` is 15 and
`ENC.PUSH` has just stored the sixteenth (R158, log entry 6). -/
def emitOk (cnt : Nat) (s : State) : Bool :=
  decide (1 ≤ cnt ∧ cnt = s.encN.val ∨ cnt = Config.frameLen ∧ s.encN.val = 15)

/-- `HDR` (R150); refused for `sh` outside 1 to 14. -/
def execHdr (sh : Nat) (s : State) : Answer := returnsIf (shiftOk sh) .shiftRange (.byte (hdr sh)) s

/-- `PACK` (R151). -/
def execPack (a b : Nib) (s : State) : Answer := .next (giveResult (.byte (pack a b)) s)

/-- `PACKSEQ` (R152); refused unless there are 1 to 16 nibbles. -/
def execPackSeq (ns : List Nib) (s : State) : Answer :=
  returnsIf (frameOk ns.length) .frameLength (.bytes (packSeq ns)) s

/-- `encode_frame` (R153); refused unless there are 1 to 16 samples. -/
def execEncodeFrame (f : List Sample) (s : State) : Answer :=
  returnsIf (frameOk f.length) .frameLength (.bytes (encodeFrame f)) s

/-- `encode` (R163). -/
def execEncode (xs : List Sample) (s : State) : Answer := .next (giveResult (.bytes (encodeStream xs)) s)

/-- `EMIT` (R158); refused where its precondition fails. -/
def execEmit (cnt : Nat) (s : State) : Answer :=
  if emitOk cnt s then .next (emitBlock cnt s) else .refused .emitCount

/-- `ENC.PUSH s` (R159); refused after `ENC.END` (R161). -/
def execEncPush (x : Sample) (s : State) : Answer :=
  if s.encDone then .refused .encoderFinished
  else if s.encN.val = 15 then .next { emitBlock Config.frameLen (storeFB x s) with encN := 0 }
  else .next { storeFB x s with encN := s.encN + 1 }

/-- `ENC.END` (R160), its ignored bits without effect (R89); refused after `ENC.END` (R161). -/
def execEncEnd (_ignored : BitVec 16) (s : State) : Answer :=
  if s.encDone then .refused .encoderFinished
  else if 0 < s.encN.val then
    .next { putTokens [.eos] (emitBlock s.encN.val s) with encN := 0, encDone := true }
  else .next { putTokens [.eos] s with encDone := true }

end Sys2Proof.Machine
end

