-- ==== Sys2Proof/Machine/Decoder.lean ====
section
/-! DEFINITION. The Block Decoder: `SHIFTOF`, `SEXT4`, `RECON`, `UNPACK`, `decode`, `REFILL`, `DEC.PULL`
(spec/43_decoder.md R180 to R197). -/

namespace Sys2Proof.Machine

/-- `SHIFTOF(h)`: `h[7:4]` (R180). -/
def shiftOf (h : Byte) : Nat := (hiNib h).toNat

/-- `SEXT4(n)` (R181). -/
def sext4 (n : Nib) : Int := if n.toNat ≤ 7 then n.toNat else (n.toNat : Int) - 16

/-- `RECON(n, sh)`: the exact product (R182, D23). -/
def recon (n : Nib) (sh : Nat) : Int := sext4 n * 2 ^ (sh - 1)

/-- `UNPACK(b, sh)`: the earlier sample's value first (R185). -/
def unpack (b : Byte) (sh : Nat) : Int × Int := (recon (hiNib b) sh, recon (loNib b) sh)

/-- The values of data bytes in order (R187, R190). -/
def unpackAll (sh : Nat) (ds : List Byte) : List Int :=
  match ds with
  | [] => []
  | b :: rest => (unpack b sh).1 :: (unpack b sh).2 :: unpackAll sh rest

/-- The least index of a value outside `i16` (R187, R225). -/
def firstOverflow (vs : List Int) : Option Nat := vs.findIdx? fun v => !inI16 v

/-- `decode(bs)` over at most `n` blocks (R190). -/
def decodeUpTo (n : Nat) (bs : List Byte) : List Sample × Response :=
  match n, bs with
  | 0, _ => ([], .exhausted)
  | _ + 1, [] => ([], .exhausted)
  | n + 1, h :: rest =>
    if reservedShift (shiftOf h) then ([], .fault .reservedShift (faultInfo 0 h))
    else
      let vs := unpackAll (shiftOf h) (rest.take Config.dataMax)
      match firstOverflow vs with
      | some j => ([], .fault .overflow (faultInfo j h))
      | none =>
        let after := decodeUpTo n (rest.drop Config.dataMax)
        (vs.map toSample ++ after.1, after.2)

/-- `decode(bs)`: the whole output of a decoder (R190). There are never more blocks than bytes. -/
def decodeStream (bs : List Byte) : List Sample × Response := decodeUpTo bs.length bs

/-- The end of `REFILL` once header `h` and the data bytes with values `vs` have been taken: no data byte is exhaustion
(R192), a value outside `i16` a fault (R223), else the block is buffered (R187, R225). -/
def closeBlock (h : Byte) (vs : List Int) (s : State) : State :=
  if vs.isEmpty then { s with decState := .exhausted }
  else
    match firstOverflow vs with
    | some j => raiseDecFault .overflow (faultInfo j h) s
    | none =>
      { s with
        sb := storeFrom 0 vs s.sb, decCnt := Fin.ofNat 17 vs.length, decRd := 0, decState := .buffered }

/-- The whole of `REFILL` in state `EMPTY` (R187, R225). -/
def refillBlock (s : State) : State :=
  match takeWord s.decIn with
  | (none, ws) => { s with decIn := ws, decState := .exhausted }
  | (some h, ws) =>
    if reservedShift (shiftOf h) then raiseDecFault .reservedShift (faultInfo 0 h) { s with decIn := ws }
    else
      closeBlock h (unpackAll (shiftOf h) (takeBytes Config.dataMax ws).1)
        { s with decIn := (takeBytes Config.dataMax ws).2 }

/-- The delivery of `SB[dec_rd]` in state `BUFFERED` (R188). An entry that is not valid is not read (R11, R27). -/
def deliver (s : State) : Answer :=
  if s.decRd.val < s.decCnt.val then
    if s.decRd.val + 1 = s.decCnt.val then
      .next (respond (.sample s.sb[s.decRd]) { s with decState := .empty, decRd := 0, decCnt := 0 })
    else .next (respond (.sample s.sb[s.decRd]) { s with decRd := s.decRd + 1 })
  else .fault .unspecifiedEntry

/-- The answer of a pull by the state the decoder is in when no refill is needed or one has ended (R188). `REFILL`
never ends in `EMPTY`, where no entry is valid. -/
def answerPull (s : State) : Answer :=
  match s.decState with
  | .exhausted => .next (respond .exhausted s)
  | .faulted => .next (respond (.fault s.decCause s.decInfo) s)
  | .buffered => deliver s
  | .empty => .fault .unspecifiedEntry

/-- `SHIFTOF` (R180). -/
def execShiftOf (h : Byte) (s : State) : Answer := .next (giveResult (.num (shiftOf h)) s)

/-- `SEXT4` (R181). -/
def execSext4 (n : Nib) (s : State) : Answer := .next (giveResult (.num (sext4 n)) s)

/-- `RECON` (R182); refused for `sh` outside 1 to 14. -/
def execRecon (n : Nib) (sh : Nat) (s : State) : Answer := returnsIf (shiftOk sh) .shiftRange (.num (recon n sh)) s

/-- `UNPACK` (R185); refused for `sh` outside 1 to 14. -/
def execUnpack (b : Byte) (sh : Nat) (s : State) : Answer :=
  returnsIf (shiftOk sh) .shiftRange (.pair (unpack b sh).1 (unpack b sh).2) s

/-- `decode` (R190). -/
def execDecode (bs : List Byte) (s : State) : Answer :=
  .next (giveResult (.stream (decodeStream bs).1 (decodeStream bs).2) s)

/-- `REFILL` (R187); refused where its precondition `dec_state = EMPTY` fails or one is in progress. -/
def execRefill (s : State) : Answer :=
  if s.decState = .empty ∧ s.refill = .idle then .next (refillBlock s) else .refused .refillNotEmpty

/-- `DEC.PULL` as one operation (R188, D28); refused while another pull is in progress. -/
def execDecPull (s : State) : Answer :=
  if s.refill = .idle then
    if s.decState = .empty then answerPull (refillBlock s) else answerPull s
  else .refused .pullInProgress

end Sys2Proof.Machine
end

