-- ==== Sys2Proof/Machine/Wire.lean ====
section
/-! DEFINITION. What a byte of `dec_in` does to the `REFILL` in progress, by position: the header rows `HDR.S0` to
`HDR.S15` and the row `DATA` (spec/30_encoding.md R82, R83, R88, spec/43_decoder.md R187). The byte has been taken; its
`Take` is the step's. -/

namespace Sys2Proof.Machine

/-- The header `h` has been taken: a reserved shift faults before any data byte is taken and the pull answers, any
other shift opens a block (R187, R222). -/
def headerTaken (h : Byte) (s : State) : Answer :=
  match s.refill with
  | .header =>
    if reservedShift (shiftOf h) then
      answerPull (raiseDecFault .reservedShift (faultInfo 0 h) { s with refill := .idle })
    else .next { s with refill := .data h [] }
  | .idle => .refused .bytePosition
  | .data _ _ => .refused .bytePosition

/-- A data byte of the block has been taken: its two values join `V`; the eighth ends the refill without a further
`Take`, and the pull answers (R185, R187). -/
def dataTaken (b : Byte) (s : State) : Answer :=
  match s.refill with
  | .data h vs =>
    let vs' := vs ++ [(unpack b (shiftOf h)).1, (unpack b (shiftOf h)).2]
    if 2 * Config.dataMax ≤ vs'.length then answerPull (closeBlock h vs' { s with refill := .idle })
    else .next { s with refill := .data h vs' }
  | .idle => .refused .bytePosition
  | .header => .refused .bytePosition

/-- `End` where a header or a data byte was due: it ends the refill, and the pull answers (R187, R192, R193). -/
def endTaken (s : State) : Answer :=
  match s.refill with
  | .header => answerPull { s with refill := .idle, decState := .exhausted }
  | .data h vs => answerPull (closeBlock h vs { s with refill := .idle })
  | .idle => .next s

/-- `HDR.S0`: reserved shift: `DecReservedShift` (R88, R222); the low nibble is ignored (R82, R180). -/
def execHdrS0 (low : Nib) (s : State) : Answer := headerTaken (joinNibs 0#4 low) s

/-- `HDR.S1`: legal shift, scale 1 (R88); the low nibble is ignored (R82, R180). -/
def execHdrS1 (low : Nib) (s : State) : Answer := headerTaken (joinNibs 1#4 low) s

/-- `HDR.S2`: legal shift, scale 2 (R88); the low nibble is ignored (R82, R180). -/
def execHdrS2 (low : Nib) (s : State) : Answer := headerTaken (joinNibs 2#4 low) s

/-- `HDR.S3`: legal shift, scale 4 (R88); the low nibble is ignored (R82, R180). -/
def execHdrS3 (low : Nib) (s : State) : Answer := headerTaken (joinNibs 3#4 low) s

/-- `HDR.S4`: legal shift, scale 8 (R88); the low nibble is ignored (R82, R180). -/
def execHdrS4 (low : Nib) (s : State) : Answer := headerTaken (joinNibs 4#4 low) s

/-- `HDR.S5`: legal shift, scale 16 (R88); the low nibble is ignored (R82, R180). -/
def execHdrS5 (low : Nib) (s : State) : Answer := headerTaken (joinNibs 5#4 low) s

/-- `HDR.S6`: legal shift, scale 32 (R88); the low nibble is ignored (R82, R180). -/
def execHdrS6 (low : Nib) (s : State) : Answer := headerTaken (joinNibs 6#4 low) s

/-- `HDR.S7`: legal shift, scale 64 (R88); the low nibble is ignored (R82, R180). -/
def execHdrS7 (low : Nib) (s : State) : Answer := headerTaken (joinNibs 7#4 low) s

/-- `HDR.S8`: legal shift, scale 128 (R88); the low nibble is ignored (R82, R180). -/
def execHdrS8 (low : Nib) (s : State) : Answer := headerTaken (joinNibs 8#4 low) s

/-- `HDR.S9`: legal shift, scale 256 (R88); the low nibble is ignored (R82, R180). -/
def execHdrS9 (low : Nib) (s : State) : Answer := headerTaken (joinNibs 9#4 low) s

/-- `HDR.S10`: legal shift, scale 512 (R88); the low nibble is ignored (R82, R180). -/
def execHdrS10 (low : Nib) (s : State) : Answer := headerTaken (joinNibs 10#4 low) s

/-- `HDR.S11`: legal shift, scale 1024 (R88); the low nibble is ignored (R82, R180). -/
def execHdrS11 (low : Nib) (s : State) : Answer := headerTaken (joinNibs 11#4 low) s

/-- `HDR.S12`: legal shift, scale 2048 (R88); the low nibble is ignored (R82, R180). -/
def execHdrS12 (low : Nib) (s : State) : Answer := headerTaken (joinNibs 12#4 low) s

/-- `HDR.S13`: legal shift, scale 4096 (R88); the low nibble is ignored (R82, R180). -/
def execHdrS13 (low : Nib) (s : State) : Answer := headerTaken (joinNibs 13#4 low) s

/-- `HDR.S14`: legal shift 14, scale 8192 (R88); the low nibble is ignored (R82, R180). -/
def execHdrS14 (low : Nib) (s : State) : Answer := headerTaken (joinNibs 14#4 low) s

/-- `HDR.S15`: reserved shift: `DecReservedShift` (R88, R222); the low nibble is ignored (R82, R180). -/
def execHdrS15 (low : Nib) (s : State) : Answer := headerTaken (joinNibs 15#4 low) s

/-- `DATA`: two samples, the earlier in the high half (R83, R185). -/
def execData (hi lo : Nib) (s : State) : Answer := dataTaken (joinNibs hi lo) s

end Sys2Proof.Machine
end

