-- ==== Sys2Proof/Machine/Dispatch.lean ====
section
/-! DEFINITION. One arm per operation, each a direct call of its meaning. -/

namespace Sys2Proof.Machine
open Sys2Proof

def exec (i : Instr) (s : State) : Host.Outcome State Fault Refusal :=
  match i with
  | .mag16 x => Sys2Proof.Machine.execMag16 x s
  | .needed x => Sys2Proof.Machine.execNeeded x s
  | .select f => Sys2Proof.Machine.execSelect f s
  | .rhaz x k => Sys2Proof.Machine.execRhaz x k s
  | .quant x sh => Sys2Proof.Machine.execQuant x sh s
  | .nib4 q => Sys2Proof.Machine.execNib4 q s
  | .hdr sh => Sys2Proof.Machine.execHdr sh s
  | .pack a b => Sys2Proof.Machine.execPack a b s
  | .packSeq ns => Sys2Proof.Machine.execPackSeq ns s
  | .encodeFrame f => Sys2Proof.Machine.execEncodeFrame f s
  | .encode xs => Sys2Proof.Machine.execEncode xs s
  | .emit cnt => Sys2Proof.Machine.execEmit cnt s
  | .encPush x => Sys2Proof.Machine.execEncPush x s
  | .encEnd ignored => Sys2Proof.Machine.execEncEnd ignored s
  | .shiftOf h => Sys2Proof.Machine.execShiftOf h s
  | .sext4 n => Sys2Proof.Machine.execSext4 n s
  | .recon n sh => Sys2Proof.Machine.execRecon n sh s
  | .unpack b sh => Sys2Proof.Machine.execUnpack b sh s
  | .decode bs => Sys2Proof.Machine.execDecode bs s
  | .refill => Sys2Proof.Machine.execRefill s
  | .decPull => Sys2Proof.Machine.execDecPull s
  | .hdrS0 low => Sys2Proof.Machine.execHdrS0 low s
  | .hdrS1 low => Sys2Proof.Machine.execHdrS1 low s
  | .hdrS2 low => Sys2Proof.Machine.execHdrS2 low s
  | .hdrS3 low => Sys2Proof.Machine.execHdrS3 low s
  | .hdrS4 low => Sys2Proof.Machine.execHdrS4 low s
  | .hdrS5 low => Sys2Proof.Machine.execHdrS5 low s
  | .hdrS6 low => Sys2Proof.Machine.execHdrS6 low s
  | .hdrS7 low => Sys2Proof.Machine.execHdrS7 low s
  | .hdrS8 low => Sys2Proof.Machine.execHdrS8 low s
  | .hdrS9 low => Sys2Proof.Machine.execHdrS9 low s
  | .hdrS10 low => Sys2Proof.Machine.execHdrS10 low s
  | .hdrS11 low => Sys2Proof.Machine.execHdrS11 low s
  | .hdrS12 low => Sys2Proof.Machine.execHdrS12 low s
  | .hdrS13 low => Sys2Proof.Machine.execHdrS13 low s
  | .hdrS14 low => Sys2Proof.Machine.execHdrS14 low s
  | .hdrS15 low => Sys2Proof.Machine.execHdrS15 low s
  | .data hi lo => Sys2Proof.Machine.execData hi lo s

end Sys2Proof.Machine
end

