-- ==== Sys2Proof/Machine/Turns.lean ====
section
/-! DEFINITION. What each turn does: what it fetches, and the run of the fetched operation (spec/00_scope.md R10,
spec/20_memory.md R52 to R57, R63); and where a word is placed so that the next turn fetches it. -/

namespace Sys2Proof.Machine

/-- A byte of `dec_in` as an operation, by the position the refill in progress gives it (R83). -/
def byteAtPosition (r : Refill) (b : Byte) : Instr :=
  match r with
  | .data _ _ => decodeData b
  | .header => decodeHeader b
  | .idle => decodeHeader b

/-- The pull in progress goes on by one `Take` on `dec_in` (R54, R187): `End` ends the refill, a byte is decoded by its
position and run. -/
def stepTake (s : State) : Answer :=
  match takeWord s.decIn with
  | (none, ws) => endTaken { s with decIn := ws }
  | (some b, ws) => exec (byteAtPosition s.refill b) { s with decIn := ws }

/-- `ENC` is offered the token at the head of `enc_in` (R52, R89); with no token offered it is idle (R270). -/
def stepEnc (s : State) : Answer :=
  match s.encIn with
  | [] => .next s
  | w :: ws => exec (decodeT17 w) { s with encIn := ws }

/-- A pull request to be carried out with one `Take` a step: in `EMPTY` a refill begins, elsewhere the pull needs none
(R188). -/
def stepBeginPull (s : State) : Answer :=
  if s.decState = .empty then .next { s with refill := .header } else exec .decPull s

/-- One turn. While a pull is in progress a further pull request waits for its answer (R61, D28), a reset of `DEC` has
no step (R252), and with no turn listed the pull goes on (R269). With nothing to do the block is idle (R270). DESIGN
CHOICE: a word waiting on `enc_in` counts as offered in a turn `enc` only, so with no turn listed and no pull in progress
the step stands still even where a word waits and `enc_done = 0`; R10's weak fairness of `ENC` rests on whoever lists the
turns (log entry 17). -/
def runTurn (s : State) : Answer :=
  match s.turns with
  | [] => if s.refill = .idle then .next s else stepTake s
  | .enc :: ts => stepEnc { s with turns := ts }
  | .resetEnc :: ts => .next (resetEnc { s with turns := ts })
  | .dec :: ts => if s.refill = .idle then .next { s with turns := ts } else stepTake { s with turns := ts }
  | .pull :: ts => if s.refill = .idle then exec .decPull { s with turns := ts } else stepTake s
  | .pullByToken :: ts => if s.refill = .idle then stepBeginPull { s with turns := ts } else stepTake s
  | .resetDec :: ts =>
    if s.refill = .idle then .next (resetDec { s with turns := ts }) else .refused .resetInsideOperation

/-- `s` with the word `w` placed where `runTurn` fetches its next operation, numbered as spec/opcode_table.json numbers
bits. Zero bits: a pull request comes next. Up to 8 bits: a pull is in progress in a decoder just reset, the byte is
next on `dec_in` and a header is due. More: a T17 word is next on `enc_in` and is offered next. -/
def placeWord (nbits w : Nat) (s : State) : State :=
  if nbits = 0 then { s with refill := .idle, turns := .pull :: s.turns }
  else if nbits ≤ 8 then
    { resetDec s with refill := .header, decIn := BitVec.ofNat 9 w :: s.decIn, turns := .dec :: s.turns }
  else { s with encIn := BitVec.ofNat 17 w :: s.encIn, turns := .enc :: s.turns }

end Sys2Proof.Machine
end

