-- ==== Sys2Proof/Machine/Step.lean ====
section
/-! DEFINITION. One step, and the word the next step fetches. -/

namespace Sys2Proof.Machine

/-- One step is the turn that is due (spec/00_scope.md R10). -/
def step (s : State) : Host.Outcome State Fault Refusal := runTurn s

/-- `s` with the word `w`, numbered as spec/opcode_table.json numbers bits, placed where `step` fetches its next
operation (log entry 7). -/
def State.withFetchWord (s : State) (nbits w : Nat) : State := placeWord nbits w s

end Sys2Proof.Machine
end

