-- ==== Sys2Proof/Safety.lean ====
section
/-! DEFINITION. The terms claims are stated in: the invariants of the two units (spec/10_state.md R26, R33), runs of
operations (spec/42_encoder.md R164, spec/43_decoder.md R191), well-formed streams (spec/30_encoding.md R93), and states that differ in unspecified entries only
(spec/93_implementation_defined.md U8). -/

namespace Sys2Proof.Machine

/-- The encoder's invariant; `0 <= enc_n <= 15` is the field's type (R26). -/
abbrev EncInv (s : State) : Prop := s.encDone = true → s.encN = 0

/-- The decoder's buffer window is what its state says (R33). -/
abbrev WindowInv (s : State) : Prop :=
  (s.decState = .buffered → s.decRd.val < s.decCnt.val ∧ s.decCnt.val % 2 = 0) ∧
  (s.decState ≠ .buffered → s.decRd = 0 ∧ s.decCnt = 0)

/-- The fault registers are written by a fault only (R31, R32, R33). -/
abbrev FaultInv (s : State) : Prop :=
  (s.decCause ≠ .none ↔ s.decState = .faulted) ∧ (s.decState ≠ .faulted → s.decInfo = 0#12)

/-- The locals of a refill in progress: the header's shift is legal, and at most seven data bytes, two values each,
have been taken (R187). -/
def refillOk (r : Refill) : Bool :=
  match r with
  | .idle => true
  | .header => true
  | .data h vs => !reservedShift (shiftOf h) && decide (vs.length % 2 = 0 ∧ vs.length < 16)

/-- A refill in progress stands in state `EMPTY` (R187). -/
abbrev RefillInv (s : State) : Prop :=
  (s.refill ≠ .idle → s.decState = .empty) ∧ refillOk s.refill = true

/-- The invariant of the whole block (R26, R33). -/
abbrev BlockInv (s : State) : Prop := EncInv s ∧ WindowInv s ∧ FaultInv s ∧ RefillInv s

/-- `s` goes on with `f` where an operation answered a next state, and stops where it did not. -/
def andThen (a : Answer) (f : State → Answer) : Answer :=
  match a with
  | .next t => f t
  | .fault r => .fault r
  | .refused r => .refused r

/-- `ENC.PUSH` of each sample in order (R94). -/
def pushAll (xs : List Sample) (s : State) : Answer :=
  match xs with
  | [] => .next s
  | x :: rest => andThen (exec (.encPush x) s) (pushAll rest)

/-- `DEC.PULL` `n` times (R94). -/
def pullTimes (n : Nat) (s : State) : Answer :=
  match n with
  | 0 => .next s
  | n + 1 => andThen (exec .decPull s) (pullTimes n)

/-- Up to `n` single `Take`s of the pull in progress, ending when it has been answered. -/
def takeTimes (n : Nat) (s : State) : Answer :=
  match n with
  | 0 => .next s
  | n + 1 => if s.refill = .idle then .next s else andThen (stepTake s) (takeTimes n)

/-- The T9 words of bytes on `dec_in` (R90). -/
def wordsOf (bs : List Byte) : List (BitVec 9) := bs.map fun b => t9Word (.byte b)

/-- A header and the data bytes taken with it are a well-formed block: 1 to 8 data bytes, a zero low nibble, a shift of 1
to 14, and at shift 14 no nibble outside -4 to 3 (R93). -/
def blockOk (h : Byte) (ds : List Byte) : Bool :=
  !ds.isEmpty && decide (loNib h = 0#4) && shiftOk (shiftOf h) &&
  (decide (shiftOf h ≠ 14) ||
    ds.all fun b => decide (-4 ≤ sext4 (hiNib b) ∧ sext4 (hiNib b) ≤ 3 ∧ -4 ≤ sext4 (loNib b) ∧ sext4 (loNib b) ≤ 3))

/-- A stream of at most `n` well-formed blocks, all of 8 data bytes but the last (R93). -/
def streamOkUpTo (n : Nat) (bs : List Byte) : Bool :=
  match n, bs with
  | _, [] => true
  | 0, _ :: _ => false
  | n + 1, h :: rest => blockOk h (rest.take Config.dataMax) && streamOkUpTo n (rest.drop Config.dataMax)

/-- A byte stream is well formed (R93). There are never more blocks than bytes. -/
def wellFormedStream (bs : List Byte) : Bool := streamOkUpTo bs.length bs

/-- The words waiting on `dec_in` answer `End` to the next `Take` (R54, R57). -/
def answersEnd (ws : List (BitVec 9)) : Bool :=
  match ws with
  | [] => true
  | w :: _ => w.getLsbD 8

/-- The two states agree in everything but entries of `FB` and `SB` that R22 and R27 call unspecified. -/
def SameButStale (s t : State) : Prop :=
  { s with fb := t.fb, sb := t.sb } = t ∧
  (∀ (i : Nat) (h : i < 16), i < s.encN.val → s.fb[i] = t.fb[i]) ∧
  (∀ (i : Nat) (h : i < 16), s.decRd.val ≤ i → i < s.decCnt.val → s.sb[i] = t.sb[i])

/-- Both answers are next states that agree but for unspecified entries, or both stop alike. -/
def SameAnswer (a b : Answer) : Prop :=
  match a, b with
  | .next s, .next t => SameButStale s t
  | .fault r, .fault q => r = q
  | .refused r, .refused q => r = q
  | _, _ => False

/-- The next state of an answer, if it is one. -/
def nextOf (a : Answer) : Option State :=
  match a with
  | .next t => some t
  | .fault _ => none
  | .refused _ => none

/-- The refusal of an answer, if it is one. -/
def refusalOf (a : Answer) : Option Refusal :=
  match a with
  | .next _ => none
  | .fault _ => none
  | .refused r => some r

/-- The machine fault of an answer, if it is one. -/
def faultOf (a : Answer) : Option Fault :=
  match a with
  | .next _ => none
  | .fault r => some r
  | .refused _ => none

end Sys2Proof.Machine
end

