-- ==== Sys2Proof/Certificates/Slice0/Obligations.lean ====
section
/-! DEFINITION. The statements for the provers, each from numbered rules of the spec. Values are written out in the
rules' own arithmetic where a rule gives a formula. -/

open Sys2Proof Sys2Proof.Machine

/-! ## Shift-Exponent Selector -/

/-- R110: the magnitude view of a sample, its range, its clear top bit, and that nothing else changes. -/
def Obligations.Mag16IsTheMagnitudeView : Prop :=
  ∀ (x : Sample) (s : State), ∃ m : BitVec 16,
    exec (.mag16 x) s = .next { s with result := .u16 m } ∧
    (0 ≤ x.toInt → m = x ∧ (m.toNat : Int) = x.toInt) ∧
    (x.toInt < 0 → m = ~~~x ∧ (m.toNat : Int) = -x.toInt - 1) ∧
    m.toNat ≤ 32767 ∧ m.getLsbD 15 = false ∧ 1 ≤ clz16 m

/-- R11: `clz16` counts the zero bits above the first one bit: 16 for zero, else the place of the top bit. -/
def Obligations.LeadingZerosPlaceTheTopBit : Prop :=
  clz16 0#16 = 16 ∧
  ∀ u : BitVec 16, u ≠ 0#16 → clz16 u ≤ 15 ∧ 2 ^ (15 - clz16 u) ≤ u.toNat ∧ u.toNat < 2 ^ (16 - clz16 u)

/-- R111: the needed exponent is 14 less the clamped leading-zero count of the magnitude view, and
`max(1, L - 2)` for its bit length `L`. -/
def Obligations.NeededIsTheClampedCount : Prop :=
  ∀ (x : Sample) (s : State), ∃ m : BitVec 16, ∃ v : Nat,
    exec (.mag16 x) s = .next { s with result := .u16 m } ∧
    exec (.needed x) s = .next { s with result := .num v } ∧
    v + min (clz16 m) 13 = 14 ∧ v = max 1 (16 - clz16 m - 2)

/-- R113: the range of `NEEDED` is exactly 1 to 13; every value of it is produced. -/
def Obligations.NeededRangeIsExact : Prop :=
  ∀ s : State,
    (∀ x : Sample, ∃ v : Nat, exec (.needed x) s = .next { s with result := .num v } ∧ 1 ≤ v ∧ v ≤ 13) ∧
    (∀ v : Nat, 1 ≤ v → v ≤ 13 → ∃ x : Sample, exec (.needed x) s = .next { s with result := .num v })

/-- R114: the complete table of `NEEDED` by the sample's value. -/
def Obligations.NeededByRangeOfTheSample : Prop :=
  ∀ (x : Sample) (s : State), ∃ v : Nat,
    exec (.needed x) s = .next { s with result := .num v } ∧
    (v = 1 ↔ -8 ≤ x.toInt ∧ x.toInt ≤ 7) ∧
    ∀ k : Nat, 2 ≤ k → k ≤ 13 →
      (v = k ↔ ((2 : Int) ^ (k + 1) ≤ x.toInt ∧ x.toInt ≤ 2 ^ (k + 2) - 1) ∨
        (-(2 : Int) ^ (k + 2) ≤ x.toInt ∧ x.toInt ≤ -(2 : Int) ^ (k + 1) - 1))

/-- R112: `SELECT` answers the mode of the needed exponents, the value that reached the winning count first: at some
sample it has its full count and every other value is still below it. -/
def Obligations.SelectPicksTheFirstToReachTheMode : Prop :=
  ∀ (f : List Sample) (s : State), 1 ≤ f.length → f.length ≤ 16 → ∃ v i : Nat,
    exec (.select f) s = .next { s with result := .num v } ∧
    i < f.length ∧ (f.map needed)[i]? = some v ∧ 1 ≤ v ∧ v ≤ 13 ∧
    ((f.map needed).take (i + 1)).count v = (f.map needed).count v ∧
    (∀ u, u ≠ v → ((f.map needed).take (i + 1)).count u < (f.map needed).count v) ∧
    (∀ u, (f.map needed).count u ≤ (f.map needed).count v)

/-! ## Nibble Quantizer -/

/-- R130: `RHAZ` is the nearest integer to `s / 2^k`, on a tie the one of larger magnitude. -/
def Obligations.RhazRoundsHalfAwayFromZero : Prop :=
  ∀ (x : Sample) (k : Nat) (s : State), k ≤ 13 → ∃ q : Int,
    exec (.rhaz x k) s = .next { s with result := .num q } ∧
    q.natAbs ≤ 32768 ∧ 2 * (x.toInt - q * 2 ^ k).natAbs ≤ 2 ^ k ∧
    (2 * (x.toInt - q * 2 ^ k).natAbs = 2 ^ k → x.toInt.natAbs < q.natAbs * 2 ^ k) ∧
    q = x.toInt.sign * ((2 * x.toInt.natAbs + 2 ^ k) / 2 ^ (k + 1) : Nat)

/-- R131: the integer form of `RHAZ`, its nibble intervals for `k >= 1`, `RHAZ(s, 0) = s`, and that the function is odd. -/
def Obligations.RhazIntervals : Prop :=
  ∀ (x : Sample) (s : State),
    exec (.rhaz x 0) s = .next { s with result := .num x.toInt } ∧
    ∀ k : Nat, 1 ≤ k → k ≤ 13 → ∃ q : Int,
      exec (.rhaz x k) s = .next { s with result := .num q } ∧
      q = (if 0 ≤ x.toInt then (((x.toInt.natAbs + 2 ^ (k - 1)) / 2 ^ k : Nat) : Int)
        else -(((x.toInt.natAbs + 2 ^ (k - 1)) / 2 ^ k : Nat) : Int)) ∧
      (∀ j : Int, 1 ≤ j → (q = j ↔ (2 * j - 1) * 2 ^ (k - 1) ≤ x.toInt ∧ x.toInt < (2 * j + 1) * 2 ^ (k - 1))) ∧
      (q = 0 ↔ -(2 : Int) ^ (k - 1) < x.toInt ∧ x.toInt < 2 ^ (k - 1)) ∧
      (∀ j : Int, j ≤ -1 → (q = j ↔ (2 * j - 1) * 2 ^ (k - 1) < x.toInt ∧ x.toInt ≤ (2 * j + 1) * 2 ^ (k - 1))) ∧
      (x ≠ 0x8000#16 → exec (.rhaz (-x) k) s = .next { s with result := .num (-q) }) ∧
      (x = 0x8000#16 → q = -((32768 / 2 ^ k : Nat) : Int))

/-- R132, R136: the quantizer clamps the rounded quotient to -8 to 7 and changes nothing else. -/
def Obligations.QuantClampsTheRoundedQuotient : Prop :=
  ∀ (x : Sample) (sh : Nat) (s : State), 1 ≤ sh → sh ≤ 14 → ∃ q n : Int,
    exec (.rhaz x (sh - 1)) s = .next { s with result := .num q } ∧
    exec (.quant x sh) s = .next { s with result := .num n } ∧
    -8 ≤ n ∧ n ≤ 7 ∧ (7 ≤ q → n = 7) ∧ (q ≤ -8 → n = -8) ∧ (-8 ≤ q → q ≤ 7 → n = q)

/-- R135 (a) to (d): where the quantizer saturates and where it answers zero. -/
def Obligations.QuantSaturationThresholds : Prop :=
  ∀ (x : Sample) (s : State),
    (∃ n : Int, exec (.quant x 1) s = .next { s with result := .num n } ∧
      (n = 7 ↔ 7 ≤ x.toInt) ∧ (n = -8 ↔ x.toInt ≤ -8) ∧ (-8 ≤ x.toInt → x.toInt ≤ 7 → n = x.toInt)) ∧
    ∀ sh : Nat, 2 ≤ sh → sh ≤ 14 → ∃ n : Int,
      exec (.quant x sh) s = .next { s with result := .num n } ∧
      (n = 7 ↔ 13 * 2 ^ (sh - 2) ≤ x.toInt) ∧ (n = -8 ↔ x.toInt ≤ -15 * 2 ^ (sh - 2)) ∧
      (n = 0 ↔ -(2 : Int) ^ (sh - 2) < x.toInt ∧ x.toInt < 2 ^ (sh - 2))

/-- R133, R181: `NIB4` and `SEXT4` are two's complement and inverse to each other. -/
def Obligations.NibblePatternsAreTwosComplement : Prop :=
  (∀ (q : Int) (s : State), -8 ≤ q → q ≤ 7 → ∃ n : Nib,
    exec (.nib4 q) s = .next { s with result := .nib n } ∧
    (0 ≤ q → (n.toNat : Int) = q) ∧ (q < 0 → (n.toNat : Int) = q + 16) ∧
    exec (.sext4 n) s = .next { s with result := .num q }) ∧
  (∀ (n : Nib) (s : State), ∃ v : Int,
    exec (.sext4 n) s = .next { s with result := .num v } ∧ -8 ≤ v ∧ v ≤ 7 ∧
    (n.toNat ≤ 7 → v = n.toNat) ∧ (8 ≤ n.toNat → v = (n.toNat : Int) - 16) ∧
    exec (.nib4 v) s = .next { s with result := .nib n })

/-- R138: the error of one quantized and reconstructed sample, without saturation (the bound is met exactly at ties) and
with it. -/
def Obligations.QuantizationErrorBound : Prop :=
  ∀ (x : Sample) (sh : Nat) (s : State), 1 ≤ sh → sh ≤ 14 → ∃ q r : Int, ∃ n : Nib,
    exec (.rhaz x (sh - 1)) s = .next { s with result := .num q } ∧
    exec (.quant x sh) s = .next { s with result := .num (sext4 n) } ∧
    exec (.recon n sh) s = .next { s with result := .num r } ∧
    (-8 ≤ q → q ≤ 7 → 2 * (r - x.toInt).natAbs ≤ 2 ^ (sh - 1) ∧
      (2 * (r - x.toInt).natAbs = 2 ^ (sh - 1) ↔ 2 ≤ sh ∧ x.toInt.natAbs % 2 ^ (sh - 1) = 2 ^ (sh - 2))) ∧
    (sh = 1 → -8 ≤ q → q ≤ 7 → r = x.toInt) ∧
    (8 ≤ q → r = 7 * 2 ^ (sh - 1) ∧ 2 ^ (sh - 1) ≤ 2 * (x.toInt - r)) ∧
    (q ≤ -9 → r = -8 * 2 ^ (sh - 1) ∧ 2 ^ (sh - 1) ≤ 2 * (r - x.toInt))

/-! ## Block Encoder -/

/-- R150, R151: the header byte and the data byte. -/
def Obligations.HeaderAndDataBytesArePacked : Prop :=
  (∀ (sh : Nat) (s : State), 1 ≤ sh → sh ≤ 14 → ∃ b : Byte,
    exec (.hdr sh) s = .next { s with result := .byte b } ∧ b.toNat = sh * 16 ∧ loNib b = 0#4 ∧
    exec (.shiftOf b) s = .next { s with result := .num sh }) ∧
  (∀ (a c : Nib) (s : State), ∃ b : Byte,
    exec (.pack a c) s = .next { s with result := .byte b } ∧ b.toNat = a.toNat * 16 + c.toNat)

/-- R152: `PACKSEQ` gives `ceil(n / 2)` bytes; byte `j` holds nibbles `2j` and `2j + 1`, the pad nibble 0 where there is
no later one. -/
def Obligations.PackSeqPairsInOrder : Prop :=
  ∀ (ns : List Nib) (s : State), 1 ≤ ns.length → ns.length ≤ 16 → ∃ bs : List Byte,
    exec (.packSeq ns) s = .next { s with result := .bytes bs } ∧
    bs.length = (ns.length + 1) / 2 ∧
    ∀ (j : Nat) (b : Byte), bs[j]? = some b →
      ns[2 * j]? = some (hiNib b) ∧ loNib b = (ns[2 * j + 1]?).getD 0#4

/-- R153, R155, R156: the block of a frame: one header byte with the selected shift and a zero low nibble, the shift
1 to 13, then `ceil(n / 2)` data bytes with the quantized samples in order. -/
def Obligations.EncodeFrameLayout : Prop :=
  ∀ (f : List Sample) (s : State), 1 ≤ f.length → f.length ≤ 16 → ∃ (sh : Nat) (h : Byte) (ds : List Byte),
    exec (.select f) s = .next { s with result := .num sh } ∧
    exec (.encodeFrame f) s = .next { s with result := .bytes (h :: ds) } ∧
    1 ≤ sh ∧ sh ≤ 13 ∧ h.toNat = sh * 16 ∧ ds.length = (f.length + 1) / 2 ∧
    (∀ (i : Nat) (x : Sample), f[i]? = some x → ∃ b : Byte, ds[i / 2]? = some b ∧
      sext4 (if i % 2 = 0 then hiNib b else loNib b) = quant x sh) ∧
    (f.length % 2 = 1 → ∃ b : Byte, ds.getLast? = some b ∧ loNib b = 0#4)

/-- R163: the stream function takes the samples frame by frame, each on its own, and has the stated length. -/
def Obligations.EncodeTakesFramesOnTheirOwn : Prop :=
  ∀ (xs : List Sample) (s : State), ∃ bs : List Byte,
    exec (.encode xs) s = .next { s with result := .bytes bs } ∧
    (xs = [] → bs = []) ∧
    (xs ≠ [] → ∃ b1 b2 : List Byte, bs = b1 ++ b2 ∧
      exec (.encodeFrame (xs.take 16)) s = .next { s with result := .bytes b1 } ∧
      exec (.encode (xs.drop 16)) s = .next { s with result := .bytes b2 }) ∧
    bs.length = 9 * (xs.length / 16) + (if xs.length % 16 = 0 then 0 else 1 + (xs.length % 16 + 1) / 2) ∧
    (∀ ys : List Sample, xs.length % 16 = 0 → ∃ b2 : List Byte,
      exec (.encode ys) s = .next { s with result := .bytes b2 } ∧
      exec (.encode (xs ++ ys)) s = .next { s with result := .bytes (bs ++ b2) })

/-- R158: `EMIT(cnt)` puts the block of the first `cnt` entries of `FB` on `enc_out`, header first, and writes no other
state; it does not exist for 0 nor for more than 16. That `cnt = 16` goes with `enc_n = 15` is log entry 6. -/
def Obligations.EmitPutsTheBlockOfTheFrame : Prop :=
  ∀ (cnt : Nat) (s : State),
    (1 ≤ cnt → cnt = s.encN.val ∨ cnt = 16 ∧ s.encN.val = 15 → ∃ bs : List Byte,
      exec (.encodeFrame (s.fb.toList.take cnt)) s = .next { s with result := .bytes bs } ∧
      exec (.emit cnt) s = .next { s with encOut := s.encOut ++ bs.map .byte }) ∧
    (cnt = 0 ∨ 16 < cnt → exec (.emit cnt) s = .refused .emitCount)

/-- R159: `ENC.PUSH` stores the sample at `FB[enc_n]`; the sixteenth emits the block of the full frame and empties it.
After `End` it is refused. -/
def Obligations.EncPushStoresAndEmitsTheSixteenth : Prop :=
  ∀ (x : Sample) (s : State),
    (s.encDone = true → exec (.encPush x) s = .refused .encoderFinished) ∧
    (s.encDone = false → s.encN.val < 15 → exec (.encPush x) s =
      .next { s with fb := s.fb.set s.encN.val x s.encN.isLt, encN := s.encN + 1 }) ∧
    (s.encDone = false → s.encN.val = 15 → ∃ bs : List Byte,
      exec (.encodeFrame (s.fb.toList.take 15 ++ [x])) s = .next { s with result := .bytes bs } ∧
      exec (.encPush x) s =
        .next { s with fb := s.fb.set 15 x, encN := 0, encOut := s.encOut ++ bs.map .byte })

/-- R160, R162: `ENC.END` flushes a short frame, puts `End` and finishes the encoder; with no frame it puts `End` only.
After `End` it is refused. -/
def Obligations.EncEndFlushesAndSignalsTheEnd : Prop :=
  ∀ (ignored : BitVec 16) (s : State),
    (s.encDone = true → exec (.encEnd ignored) s = .refused .encoderFinished) ∧
    (s.encDone = false → 0 < s.encN.val → ∃ bs : List Byte,
      exec (.encodeFrame (s.fb.toList.take s.encN.val)) s = .next { s with result := .bytes bs } ∧
      exec (.encEnd ignored) s =
        .next { s with encN := 0, encDone := true, encOut := s.encOut ++ bs.map .byte ++ [.eos] }) ∧
    (s.encDone = false → s.encN = 0 → exec (.encEnd ignored) s = .next { s with encDone := true, encOut := s.encOut ++ [.eos] })

/-- R161, R256: a finished encoder takes no token, and there is no step that offers it one. -/
def Obligations.FinishedEncoderRefusesTokens : Prop :=
  (∀ (x : Sample) (ignored : BitVec 16) (s : State), s.encDone = true →
    exec (.encPush x) s = .refused .encoderFinished ∧ exec (.encEnd ignored) s = .refused .encoderFinished) ∧
  (∀ (s : State) (w : BitVec 17) (ws : List (BitVec 17)) (ts : List Turn),
    s.encDone = true → s.turns = .enc :: ts → s.encIn = w :: ws → step s = .refused .encoderFinished)

/-- R164: from a fresh encoder, after the samples the bytes put are those of the full frames and `FB` holds the rest;
after `End` they are `encode` of all samples and one `End`. -/
def Obligations.EncoderAgreesWithTheStreamFunction : Prop :=
  ∀ (xs : List Sample) (ignored : BitVec 16) (s : State), s.encN = 0 → s.encDone = false → ∃ t u : State,
    pushAll xs s = .next t ∧
    t.encOut = s.encOut ++ (encodeStream (xs.take (16 * (xs.length / 16)))).map .byte ∧
    t.encN.val = xs.length % 16 ∧ t.encDone = false ∧
    t.fb.toList.take (xs.length % 16) = xs.drop (16 * (xs.length / 16)) ∧
    exec (.encEnd ignored) t = .next u ∧
    u.encOut = s.encOut ++ (encodeStream xs).map .byte ++ [.eos] ∧ u.encN = 0 ∧ u.encDone = true

/-! ## Block Decoder -/

/-- R180, R185: the shift field is the high nibble of a header, whatever its low nibble is; a data byte gives the values
of its high and its low half, the earlier sample first. -/
def Obligations.HeaderAndDataBytesAreUnpacked : Prop :=
  (∀ (h : Byte) (s : State),
    exec (.shiftOf h) s = .next { s with result := .num (h.toNat / 16 : Nat) } ∧
    ∀ low : Nib, exec (.shiftOf (joinNibs (hiNib h) low)) s = exec (.shiftOf h) s) ∧
  (∀ (b : Byte) (sh : Nat) (s : State), 1 ≤ sh → sh ≤ 14 → ∃ v w : Int,
    exec (.unpack b sh) s = .next { s with result := .pair v w } ∧
    exec (.recon (BitVec.ofNat 4 (b.toNat / 16)) sh) s = .next { s with result := .num v } ∧
    exec (.recon (BitVec.ofNat 4 (b.toNat % 16)) sh) s = .next { s with result := .num w })

/-- R182, R183: the reconstructed value, its range, and when it is inside `i16`. -/
def Obligations.ReconIsTheExactProduct : Prop :=
  ∀ (n : Nib) (sh : Nat) (s : State), 1 ≤ sh → sh ≤ 14 → ∃ d v : Int,
    exec (.sext4 n) s = .next { s with result := .num d } ∧
    exec (.recon n sh) s = .next { s with result := .num v } ∧
    v = d * 2 ^ (sh - 1) ∧ -65536 ≤ v ∧ v ≤ 57344 ∧
    (sh ≤ 13 → -32768 ≤ v ∧ v ≤ 32767) ∧
    (sh = 14 → (-32768 ≤ v ∧ v ≤ 32767 ↔ -4 ≤ d ∧ d ≤ 3))

/-- R190: the stream function of the decoder, by its first block. -/
def Obligations.DecodeTakesBlocksByPosition : Prop :=
  (∀ s : State, exec (.decode []) s = .next { s with result := .stream [] .exhausted }) ∧
  ∀ (h : Byte) (rest : List Byte) (s : State),
    let sh := h.toNat / 16
    let vs := unpackAll sh (rest.take 8)
    (sh = 0 ∨ sh = 15 →
      exec (.decode (h :: rest)) s = .next { s with result := .stream [] (.fault .reservedShift (0#4 ++ h)) }) ∧
    (1 ≤ sh → sh ≤ 14 →
      (∀ j : Nat, ∀ v : Int, vs[j]? = some v → ¬ (-32768 ≤ v ∧ v ≤ 32767) →
        (∀ i w, i < j → vs[i]? = some w → -32768 ≤ w ∧ w ≤ 32767) →
        exec (.decode (h :: rest)) s =
          .next { s with result := .stream [] (.fault .overflow (BitVec.ofNat 4 j ++ h)) }) ∧
      ((∀ v ∈ vs, -32768 ≤ v ∧ v ≤ 32767) → ∃ (ys : List Sample) (o : Response),
        exec (.decode (rest.drop 8)) s = .next { s with result := .stream ys o } ∧
        exec (.decode (h :: rest)) s = .next { s with result := .stream (vs.map toSample ++ ys) o }))

/-- R187, R225: the five outcomes of `REFILL` in their order of priority, with what each takes and writes. -/
def Obligations.RefillOutcomesByPriority : Prop :=
  ∀ s : State, s.decState = .empty → s.refill = .idle →
    (answersEnd s.decIn = true → exec .refill s = .next { s with decState := .exhausted }) ∧
    ∀ (h : Byte) (ds : List Byte) (rest : List (BitVec 9)),
      s.decIn = wordsOf (h :: ds) ++ rest → ds.length ≤ 8 → (ds.length = 8 ∨ answersEnd rest = true) →
      let sh := h.toNat / 16
      let vs := unpackAll sh ds
      (sh = 0 ∨ sh = 15 → exec .refill s = .next
        { s with
          decIn := wordsOf ds ++ rest, decCause := .reservedShift, decInfo := 0#4 ++ h, decState := .faulted,
          decRd := 0, decCnt := 0 }) ∧
      (1 ≤ sh → sh ≤ 14 → ds = [] → exec .refill s = .next { s with decIn := rest, decState := .exhausted }) ∧
      (1 ≤ sh → sh ≤ 14 → ∀ (j : Nat) (v : Int), vs[j]? = some v → ¬ (-32768 ≤ v ∧ v ≤ 32767) →
        (∀ i w, i < j → vs[i]? = some w → -32768 ≤ w ∧ w ≤ 32767) →
        exec .refill s = .next
          { s with
            decIn := rest, decCause := .overflow, decInfo := BitVec.ofNat 4 j ++ h, decState := .faulted,
            decRd := 0, decCnt := 0 }) ∧
      (1 ≤ sh → sh ≤ 14 → ds ≠ [] → (∀ v ∈ vs, -32768 ≤ v ∧ v ≤ 32767) → ∃ t : State,
        exec .refill s = .next t ∧
        t = { s with
          decIn := rest, sb := t.sb, decCnt := Fin.ofNat 17 (2 * ds.length), decRd := 0, decState := .buffered } ∧
        ∀ (j : Nat) (hj : j < 16), t.sb[j] = ((vs[j]?).map toSample).getD s.sb[j])

/-- R188, R34: a pull by the state it finds, with the refill first in `EMPTY`. -/
def Obligations.PullAnswersByState : Prop :=
  ∀ s : State, s.refill = .idle →
    (s.decState = .exhausted → exec .decPull s = .next { s with decOut := s.decOut ++ [.exhausted] }) ∧
    (s.decState = .faulted →
      exec .decPull s = .next { s with decOut := s.decOut ++ [.fault s.decCause s.decInfo] }) ∧
    (s.decState = .buffered → s.decRd.val + 1 < s.decCnt.val →
      exec .decPull s = .next { s with decOut := s.decOut ++ [.sample s.sb[s.decRd]], decRd := s.decRd + 1 }) ∧
    (s.decState = .buffered → s.decRd.val + 1 = s.decCnt.val →
      exec .decPull s = .next
        { s with decOut := s.decOut ++ [.sample s.sb[s.decRd]], decState := .empty, decRd := 0, decCnt := 0 }) ∧
    (s.decState = .empty → ∃ t u : State,
      exec .refill s = .next t ∧ t.decState ≠ .empty ∧ exec .decPull t = .next u ∧ exec .decPull s = .next u)

/-- R191: from `EMPTY` with the bytes `bs` then `End` on `dec_in`, the answers to `n` pulls are the first `n` samples of
`decode(bs)`, then its end for ever; while samples last, whole blocks have been taken. -/
def Obligations.DecoderAgreesWithTheStreamFunction : Prop :=
  ∀ (bs : List Byte) (rest : List (BitVec 9)) (n : Nat) (s : State),
    s.decState = .empty → s.refill = .idle → s.decIn = wordsOf bs ++ rest → answersEnd rest = true →
    ∃ (ys : List Sample) (o : Response) (t : State),
      exec (.decode bs) s = .next { s with result := .stream ys o } ∧
      pullTimes n s = .next t ∧
      t.decOut = s.decOut ++ (ys.map Response.sample).take n ++ List.replicate (n - ys.length) o ∧
      (n ≤ ys.length → t.decIn = wordsOf (bs.drop (9 * ((n + 15) / 16))) ++ rest)

/-- R166, R195, R228: decoding what the encoder made of one frame gives each sample's quantized value times the scale,
one extra zero for an odd frame, and a good end. -/
def Obligations.FrameRoundTrip : Prop :=
  ∀ (f : List Sample) (s : State), 1 ≤ f.length → f.length ≤ 16 →
    ∃ (sh : Nat) (bs : List Byte) (ys : List Sample),
      exec (.select f) s = .next { s with result := .num sh } ∧
      exec (.encodeFrame f) s = .next { s with result := .bytes bs } ∧
      exec (.decode bs) s = .next { s with result := .stream ys .exhausted } ∧
      ys.length = f.length + f.length % 2 ∧
      (∀ (i : Nat) (x y : Sample), f[i]? = some x → ys[i]? = some y → y.toInt = quant x sh * 2 ^ (sh - 1)) ∧
      (f.length % 2 = 1 → ys[f.length]? = some 0#16)

/-- R228, R263: decoding an encoded stream never faults; with an odd sample count it gives one more sample, a last 0. -/
def Obligations.EncodedStreamsDecodeWithoutFault : Prop :=
  ∀ (xs : List Sample) (s : State), ∃ (bs : List Byte) (ys : List Sample),
    exec (.encode xs) s = .next { s with result := .bytes bs } ∧
    exec (.decode bs) s = .next { s with result := .stream ys .exhausted } ∧
    ys.length = xs.length + xs.length % 2 ∧ (xs.length % 2 = 1 → ys.getLast? = some 0#16)

/-- R93, R190, R228: an encoded stream is well formed; a well-formed stream decodes to two samples for each of its data
bytes and to a good end. -/
def Obligations.WellFormedStreamsDecodeWithoutFault : Prop :=
  (∀ (xs : List Sample) (s : State), ∃ bs : List Byte,
    exec (.encode xs) s = .next { s with result := .bytes bs } ∧ wellFormedStream bs = true) ∧
  ∀ (bs : List Byte) (s : State), wellFormedStream bs = true → ∃ ys : List Sample,
    exec (.decode bs) s = .next { s with result := .stream ys .exhausted } ∧
    ys.length = 2 * (bs.length - (bs.length + 8) / 9)

/-- R227, R194: in `FAULTED` and `EXHAUSTED` no step but a reset of `DEC` leaves the state, takes from `dec_in`, or changes
the fault registers or the buffer. -/
def Obligations.TerminalDecoderStatesAreLeftByResetOnly : Prop :=
  ∀ s t : State, BlockInv s → step s = .next t →
    (s.decState = .exhausted ∨ s.decState = .faulted) →
    (t.decState = s.decState ∧ t.decCause = s.decCause ∧ t.decInfo = s.decInfo ∧ t.decIn = s.decIn ∧
      t.sb = s.sb) ∨
    s.turns.head? = some .resetDec

/-- R161: only a reset of `ENC` leads a step out of `enc_done = 1`, and until then nothing is put on `enc_out`. -/
def Obligations.FinishedEncoderIsLeftByResetOnly : Prop :=
  ∀ s t : State, s.encDone = true → step s = .next t →
    (t.encDone = true ∧ t.encOut = s.encOut ∧ t.fb = s.fb ∧ t.encN = s.encN) ∨ s.turns.head? = some .resetEnc

/-! ## Bytes on the wire, by position -/

/-- R222, R226: in a pull carried out token by token (log entry 3) a header byte with a reserved shift faults before any
data byte is taken, and the pull answers the fault. -/
def Obligations.ReservedHeaderFaults : Prop :=
  ∀ (low : Nib) (s : State), s.refill = .header →
    exec (.hdrS0 low) s = .next
      { s with
        refill := .idle, decCause := .reservedShift, decInfo := 0#8 ++ low, decState := .faulted, decRd := 0,
        decCnt := 0, decOut := s.decOut ++ [.fault .reservedShift (0#8 ++ low)] } ∧
    exec (.hdrS15 low) s = .next
      { s with
        refill := .idle, decCause := .reservedShift, decInfo := 0x0F#8 ++ low, decState := .faulted, decRd := 0,
        decCnt := 0, decOut := s.decOut ++ [.fault .reservedShift (0x0F#8 ++ low)] }

/-- R88, R82: in a pull carried out token by token (log entry 3) a header byte with a legal shift, 1 to 14, opens a block
with no value yet, whatever its low nibble. -/
def Obligations.LegalHeaderOpensABlock : Prop :=
  ∀ (low : Nib) (s : State), s.refill = .header →
    exec (.hdrS1 low) s = .next { s with refill := .data (1#4 ++ low) [] } ∧
    exec (.hdrS2 low) s = .next { s with refill := .data (2#4 ++ low) [] } ∧
    exec (.hdrS3 low) s = .next { s with refill := .data (3#4 ++ low) [] } ∧
    exec (.hdrS4 low) s = .next { s with refill := .data (4#4 ++ low) [] } ∧
    exec (.hdrS5 low) s = .next { s with refill := .data (5#4 ++ low) [] } ∧
    exec (.hdrS6 low) s = .next { s with refill := .data (6#4 ++ low) [] } ∧
    exec (.hdrS7 low) s = .next { s with refill := .data (7#4 ++ low) [] } ∧
    exec (.hdrS8 low) s = .next { s with refill := .data (8#4 ++ low) [] } ∧
    exec (.hdrS9 low) s = .next { s with refill := .data (9#4 ++ low) [] } ∧
    exec (.hdrS10 low) s = .next { s with refill := .data (10#4 ++ low) [] } ∧
    exec (.hdrS11 low) s = .next { s with refill := .data (11#4 ++ low) [] } ∧
    exec (.hdrS12 low) s = .next { s with refill := .data (12#4 ++ low) [] } ∧
    exec (.hdrS13 low) s = .next { s with refill := .data (13#4 ++ low) [] } ∧
    exec (.hdrS14 low) s = .next { s with refill := .data (14#4 ++ low) [] }

/-- R83, R185, R187: in a pull carried out token by token (log entry 3) a data byte adds its two values to the block;
the eighth ends the refill, and if all values are samples the pull delivers the first. -/
def Obligations.DataByteJoinsTheBlock : Prop :=
  ∀ (hi lo : Nib) (h : Byte) (vs : List Int) (s : State), s.refill = .data h vs →
    let sh := h.toNat / 16
    let vs' := vs ++ [recon hi sh, recon lo sh]
    (vs.length < 14 → exec (.data hi lo) s = .next { s with refill := .data h vs' }) ∧
    (vs.length = 14 → (∀ v ∈ vs', -32768 ≤ v ∧ v ≤ 32767) → ∃ t : State,
      exec (.data hi lo) s = .next t ∧
      t = { s with
        refill := .idle, sb := t.sb, decCnt := 16, decRd := 1, decState := .buffered, decOut := t.decOut } ∧
      t.decOut = s.decOut ++ [.sample t.sb[0]] ∧
      ∀ (j : Nat) (hj : j < 16), ∃ v : Int, vs'[j]? = some v ∧ t.sb[j] = toSample v)

/-- R223, R225: in a pull carried out token by token (log entry 3), where a value of the block is outside `i16` the
token that ends the block, its eighth data byte or an `End` before that, faults with the least index of such a value; no
sample of the block is delivered. -/
def Obligations.OverflowFaultsWithTheLeastIndex : Prop :=
  ∀ (h : Byte) (vs : List Int) (j : Nat) (v : Int) (s : State), s.refill = .data h vs → ¬ (-32768 ≤ v ∧ v ≤ 32767) →
    (∀ hi lo : Nib,
      let vs' := vs ++ [recon hi (h.toNat / 16), recon lo (h.toNat / 16)]
      vs.length = 14 → vs'[j]? = some v → (∀ i w, i < j → vs'[i]? = some w → -32768 ≤ w ∧ w ≤ 32767) →
      exec (.data hi lo) s = .next
        { s with
          refill := .idle, decCause := .overflow, decInfo := BitVec.ofNat 4 j ++ h, decState := .faulted, decRd := 0,
          decCnt := 0, decOut := s.decOut ++ [.fault .overflow (BitVec.ofNat 4 j ++ h)] }) ∧
    (∀ ts : List Turn,
      s.turns = .dec :: ts → answersEnd s.decIn = true → vs[j]? = some v →
      (∀ i w, i < j → vs[i]? = some w → -32768 ≤ w ∧ w ≤ 32767) →
      step s = .next
        { s with
          turns := ts, refill := .idle, decCause := .overflow, decInfo := BitVec.ofNat 4 j ++ h, decState := .faulted,
          decRd := 0, decCnt := 0, decOut := s.decOut ++ [.fault .overflow (BitVec.ofNat 4 j ++ h)] })

/-- R83, R189: a byte out of its position has no step (log entry 3). -/
def Obligations.BytesOutOfPositionAreRefused : Prop :=
  ∀ (b : Byte) (s : State),
    (s.refill ≠ .header → exec (decodeHeader b) s = .refused .bytePosition) ∧
    (s.refill = .idle ∨ s.refill = .header → exec (decodeData b) s = .refused .bytePosition)

/-- R187, R188, R61 (log entry 3): a pull carried out token by token ends, after at most nine `Take`s, in the state that
the pull as one operation answers. That it ends rests on R271, that the source answers every `Take`, as the model's
source does (log entry 8, U12, R269). -/
def Obligations.PullByTokenRefinesPull : Prop :=
  ∀ s : State, s.decState = .empty → s.refill = .idle → ∃ t : State,
    exec .decPull s = .next t ∧ takeTimes 9 { s with refill := .header } = .next t ∧ t.refill = .idle

/-! ## The whole block -/

/-- R26, R33 at reset. -/
def Obligations.ResetMeetsTheInvariant : Prop := BlockInv State.reset

/-- R26, R33: every step keeps the invariant, from every state that meets it. -/
def Obligations.EveryStepKeepsTheInvariant : Prop := ∀ s t : State, BlockInv s → step s = .next t → BlockInv t

/-- R26, R33: every operation keeps the invariant, those that no step fetches too. -/
def Obligations.EveryOperationKeepsTheInvariant : Prop :=
  ∀ (i : Instr) (s t : State), BlockInv s → exec i s = .next t → BlockInv t

/-- R188, R33: from a state that meets the invariant a pull always answers, with exactly one response, and takes at most
nine words. That it answers rests on R271, that the source answers every `Take` and the sink accepts, as the model's
environment does (log entry 8, U12, R269). -/
def Obligations.PullAlwaysAnswersOnce : Prop :=
  ∀ s : State, BlockInv s → s.refill = .idle → ∃ (t : State) (r : Response),
    exec .decPull s = .next t ∧ t.decOut = s.decOut ++ [r] ∧
    t.decIn <:+ s.decIn ∧ s.decIn.length ≤ t.decIn.length + 9

/-- R189, R39: a step takes from `dec_in` only in `EMPTY`, for a pull; and what it leaves is the rest of the stream. -/
def Obligations.DecoderIsLazy : Prop :=
  ∀ s t : State, BlockInv s → step s = .next t →
    t.decIn <:+ s.decIn ∧
    (t.decIn ≠ s.decIn → s.decState = .empty ∧ (s.refill ≠ .idle ∨ s.turns.head? = some .pull))

/-- R53, R55: what has been put on an output port is never changed. -/
def Obligations.OutputsOnlyGrow : Prop :=
  ∀ s t : State, step s = .next t → s.encOut <+: t.encOut ∧ s.decOut <+: t.decOut

/-- R22, R27, U8: no step depends on an entry of `FB` or `SB` outside its valid window. The values such entries hold at
reset and after a unit's reset are the model's choice (log entries 1 and 5). -/
def Obligations.StaleEntriesAreNeverRead : Prop :=
  ∀ s t : State, SameButStale s t → SameAnswer (step s) (step t)

/-- R20, R63: the operations of `ENC` leave every field of `DEC` as it was, and those of `DEC` every field of `ENC`. -/
def Obligations.UnitsLeaveEachOtherAlone : Prop :=
  (∀ (i : Instr) (s t : State), ((∃ x, i = .encPush x) ∨ (∃ w, i = .encEnd w) ∨ ∃ c, i = .emit c) →
    exec i s = .next t →
    t = { s with fb := t.fb, encN := t.encN, encDone := t.encDone, encOut := t.encOut }) ∧
  (∀ (i : Instr) (s t : State),
    (i = .refill ∨ i = .decPull ∨ (∃ b, i = decodeHeader b) ∨ ∃ b, i = decodeData b) →
    exec i s = .next t →
    t = { s with
      sb := t.sb, decCnt := t.decCnt, decRd := t.decRd, decState := t.decState, decCause := t.decCause,
      decInfo := t.decInfo, refill := t.refill, decIn := t.decIn, decOut := t.decOut })

/-- R63, U20: an operation of `ENC` and a pull, where they answer in one order, answer in the other too and end in the
same state. -/
def Obligations.EncoderAndDecoderCommute : Prop :=
  ∀ (e : Instr) (s u : State), ((∃ x, e = .encPush x) ∨ ∃ w, e = .encEnd w) →
    (∀ t : State, exec e s = .next t → exec .decPull t = .next u →
      ∃ v : State, exec .decPull s = .next v ∧ exec e v = .next u) ∧
    (∀ v : State, exec .decPull s = .next v → exec e v = .next u →
      ∃ t : State, exec e s = .next t ∧ exec .decPull t = .next u)

/-- R37, R30, R31: what each status output shows in every state, with the codes of `dec_state` and `dec_cause`. -/
def Obligations.StatusOutputsShowTheState : Prop :=
  ∀ s : State,
    (statusOf s).encN.toNat = s.encN.val ∧ ((statusOf s).encDone = true ↔ s.encDone = true) ∧
    (statusOf s).decRd.toNat = s.decRd.val ∧ (statusOf s).decCnt.toNat = s.decCnt.val ∧
    (statusOf s).decInfo = s.decInfo ∧
    (s.decState = .empty ↔ (statusOf s).decState = 0#2) ∧ (s.decState = .buffered ↔ (statusOf s).decState = 1#2) ∧
    (s.decState = .exhausted ↔ (statusOf s).decState = 2#2) ∧ (s.decState = .faulted ↔ (statusOf s).decState = 3#2) ∧
    (s.decCause = .none ↔ (statusOf s).decCause = 0#2) ∧ (s.decCause = .reservedShift ↔ (statusOf s).decCause = 1#2) ∧
    (s.decCause = .overflow ↔ (statusOf s).decCause = 2#2)

/-- R36, R80: an operation that no bits select, other than the internal `EMIT` and `REFILL`, runs on every operand in
its domain and changes nothing but the value it returns, whose place in the state is the model's (log entry 4); outside
its domain it is refused (U14, D27, log entry 14). -/
def Obligations.PrimitivesOnlyReturnAValue : Prop :=
  ∀ (i : Instr) (s : State), encode i = none → i ≠ .refill → (∀ c, i ≠ .emit c) →
    (wellFormed i = true → ∃ v : Value, v ≠ .nothing ∧ exec i s = .next { s with result := v }) ∧
    (wellFormed i = false → ∃ r : Refusal, exec i s = .refused r)

/-- U14, R116 (h), R137: which refusal an operand outside its domain meets. The names of the refusals are the model's, and
that `NIB4`, `PACKSEQ`, `encode_frame` and `UNPACK` refuse is read from their operand lines (log entry 14). -/
def Obligations.OperandsOutsideTheirDomainAreRefused : Prop :=
  ∀ (s : State) (x : Sample) (n : Nib) (b : Byte),
    exec (.select []) s = .refused .frameLength ∧ exec (.encodeFrame []) s = .refused .frameLength ∧
    exec (.packSeq []) s = .refused .frameLength ∧
    (∀ k : Nat, 14 ≤ k → exec (.rhaz x k) s = .refused .divisorRange) ∧
    (∀ q : Int, q < -8 ∨ 7 < q → exec (.nib4 q) s = .refused .nibbleRange) ∧
    (∀ sh : Nat, sh = 0 ∨ 15 ≤ sh →
      exec (.quant x sh) s = .refused .shiftRange ∧ exec (.hdr sh) s = .refused .shiftRange ∧
      exec (.recon n sh) s = .refused .shiftRange ∧ exec (.unpack b sh) s = .refused .shiftRange)

/-- R250: the state at reset. The contents of `FB` and `SB` are left out: the spec gives none (log entry 1). -/
def Obligations.ResetStateHoldsTheResetValues : Prop :=
  State.reset.encN = 0 ∧ State.reset.encDone = false ∧ State.reset.decState = .empty ∧ State.reset.decRd = 0 ∧
  State.reset.decCnt = 0 ∧ State.reset.decCause = .none ∧ State.reset.decInfo = 0#12

/-- R250, R251: a unit's reset sets its own fields to their reset values and touches neither the other unit nor any
stream; inside a pull carried out token by token there is no reset of `DEC` (R252). That `FB` and `SB` keep their
entries is the model's choice (log entry 5). -/
def Obligations.UnitResetsTouchTheirUnitOnly : Prop :=
  ∀ (s : State) (ts : List Turn),
    (s.turns = .resetEnc :: ts → step s = .next { s with turns := ts, encN := 0, encDone := false }) ∧
    (s.turns = .resetDec :: ts → s.refill = .idle → step s = .next
      { s with
        turns := ts, decState := .empty, decRd := 0, decCnt := 0, decCause := .none, decInfo := 0#12 }) ∧
    (s.turns = .resetDec :: ts → s.refill ≠ .idle → step s = .refused .resetInsideOperation)

/-! ## Encodings and fetch -/

/-- R89, R92, R82, R83: decoding the word of an operation gives the operation back with every operand, and every word
of a format is the word of the one operation it decodes to. -/
def Obligations.DecodeAndEncodeAgree : Prop :=
  (∀ (i : Instr) (f : Format) (w : Nat), encode i = some (f, w) → decodeWord f w = .instr i) ∧
  (∀ (i : Instr) (f : Format) (w : Nat), decodeWord f w = .instr i → encode i = some (f, w))

/-- R92: every word of a format is selected by the mask and match of exactly one row of the table, the row of the
operation it decodes to; a wider word is rejected by name. -/
def Obligations.TableRowsSelectWhatIsDecoded : Prop :=
  ∀ (f : Format) (w : Nat),
    (w < 2 ^ formatWidth f → ∃ i : Instr, decodeWord f w = .instr i ∧ selectedRows f w = [mnemonicOf i]) ∧
    (2 ^ formatWidth f ≤ w → decodeWord f w = .reject (.tooWide f))

/-- R90, R91: the formats of the tokens on `enc_out`, `dec_in` and `dec_out`: T9, the zero-width request Q0, and T18, of
which kind 3 is never produced. -/
def Obligations.TokenFormats : Prop :=
  (∀ b : Byte, readT9 (t9Word (.byte b)) = some b ∧ (t9Word (.byte b)).toNat = b.toNat) ∧
  (t9Word .eos).toNat = 0x100 ∧
  (∀ w : BitVec 9, (w.toNat < 256 → ∃ b : Byte, readT9 w = some b ∧ b.toNat = w.toNat) ∧
    (256 ≤ w.toNat → readT9 w = none)) ∧
  (∀ s : Sample, (t18Word (.sample s)).toNat = s.toNat) ∧ (t18Word .exhausted).toNat = 0x10000 ∧
  (∀ (c : DecCause) (info : BitVec 12),
    (t18Word (.fault c info)).toNat = 0x20000 + (causeCode c).toNat * 0x4000 + info.toNat) ∧
  (∀ r : Response, (t18Word r).toNat < 0x30000) ∧ formatWidth .q0 = 0 ∧ decodeWord .q0 0 = .instr .decPull

/-- R54, R57: `Take` removes the next byte; an `End` removes nothing, so that it is the answer for ever. -/
def Obligations.EndOfTheSourceIsPermanent : Prop :=
  ∀ ws : List (BitVec 9),
    (answersEnd ws = true → takeWord ws = (none, ws)) ∧
    (answersEnd ws = false → ∃ (b : Byte) (rest : List (BitVec 9)),
      takeWord ws = (some b, rest) ∧ ∃ w, ws = w :: rest ∧ w.toNat = b.toNat)

/-- R82, R83, R89, R91: words written out bit by bit from the formats decode to the operations they stand for. -/
def Obligations.WrittenOutWordsDecode : Prop :=
  decodeWord .t17 0b00000000000000101 = .instr (.encPush 5#16) ∧
  decodeWord .t17 0b01111111111111110 = .instr (.encPush (-2#16)) ∧
  decodeWord .t17 0b10000000000000000 = .instr (.encEnd 0#16) ∧
  decodeWord .header 0b01011010 = .instr (.hdrS5 0xA#4) ∧
  decodeWord .header 0b11110000 = .instr (.hdrS15 0#4) ∧
  decodeWord .data 0b00011110 = .instr (.data 1#4 0xE#4) ∧ decodeWord .q0 0 = .instr .decPull

/-- R52, R55, R83, R187: a step runs the operation its fetch decodes: the token offered on `enc_in`, the pull request,
or the byte taken for the pull in progress, decoded by its position; with what is fetched removed from its port. The
turns, the places of the words and the one `Take` a step are the model's (log entries 2, 3 and 7). -/
def Obligations.StepRunsTheFetchedOperation : Prop :=
  ∀ (s : State) (ts : List Turn),
    (∀ (w : BitVec 17) (ws : List (BitVec 17)) (i : Instr),
      s.turns = .enc :: ts → s.encIn = w :: ws → decodeWord .t17 w.toNat = .instr i →
      step s = exec i { s with turns := ts, encIn := ws }) ∧
    (s.turns = .pull :: ts → s.refill = .idle → step s = exec .decPull { s with turns := ts }) ∧
    (∀ (b : Byte) (ws : List (BitVec 9)) (i : Instr),
      s.turns = .dec :: ts → s.refill = .header → s.decIn = t9Word (.byte b) :: ws →
      decodeWord .header b.toNat = .instr i → step s = exec i { s with turns := ts, decIn := ws }) ∧
    (∀ (h : Byte) (vs : List Int) (b : Byte) (ws : List (BitVec 9)) (i : Instr),
      s.turns = .dec :: ts → s.refill = .data h vs → s.decIn = t9Word (.byte b) :: ws →
      decodeWord .data b.toNat = .instr i → step s = exec i { s with turns := ts, decIn := ws })

/-- R56, R61, R187 (log entries 3 and 16): a pull carried out token by token begins in `EMPTY` with its header due; each
step of it takes the next word of `dec_in`, or nothing on an `End`; an `End` ends it, in `EXHAUSTED` before the first data
byte, and after one to seven of them with the short block buffered and its first sample delivered (a short block that
overflows is `OverflowFaultsWithTheLeastIndex`); a further request waits, and with no turn listed the pull goes on. -/
def Obligations.TokenPullsTakeOneTokenAStep : Prop :=
  ∀ (s : State) (ts : List Turn),
    (s.turns = .pullByToken :: ts → s.refill = .idle → s.decState = .empty →
      step s = .next { s with turns := ts, refill := .header }) ∧
    (s.turns = .pullByToken :: ts → s.refill = .idle → s.decState ≠ .empty →
      step s = exec .decPull { s with turns := ts }) ∧
    (∀ t : State, s.turns = .dec :: ts → s.refill ≠ .idle → step s = .next t →
      t.turns = ts ∧ (answersEnd s.decIn = true → t.decIn = s.decIn ∧ t.refill = .idle) ∧
      (answersEnd s.decIn = false → ∃ w, s.decIn = w :: t.decIn)) ∧
    (s.turns = .dec :: ts → s.refill = .header ∨ (∃ h, s.refill = .data h []) → answersEnd s.decIn = true →
      step s = .next
        { s with
          turns := ts, refill := .idle, decState := .exhausted, decOut := s.decOut ++ [.exhausted] }) ∧
    (∀ (h : Byte) (vs : List Int),
      s.turns = .dec :: ts → s.refill = .data h vs → 2 ≤ vs.length → vs.length ≤ 14 →
      (∀ v ∈ vs, -32768 ≤ v ∧ v ≤ 32767) → answersEnd s.decIn = true → ∃ t : State,
        step s = .next t ∧
        t = { s with
          turns := ts, refill := .idle, sb := t.sb, decCnt := Fin.ofNat 17 vs.length, decRd := 1,
          decState := .buffered, decOut := s.decOut ++ [.sample t.sb[0]] } ∧
        ∀ (j : Nat) (hj : j < 16), t.sb[j] = ((vs[j]?).map toSample).getD s.sb[j]) ∧
    (s.refill ≠ .idle → s.turns = [] ∨ s.turns = .pull :: ts ∨ s.turns = .pullByToken :: ts →
      step s = step { s with turns := .dec :: s.turns })

/-- R270, R10: with nothing to do the block is idle: no turn, or the turn of a unit that is offered nothing. That a word
waiting on `enc_in` with no turn listed is not yet offered is the model's choice (log entry 17). -/
def Obligations.IdleBlockStandsStill : Prop :=
  ∀ (s : State) (ts : List Turn),
    (s.turns = [] → s.refill = .idle → step s = .next s) ∧
    (s.turns = .enc :: ts → s.encIn = [] → step s = .next { s with turns := ts }) ∧
    (s.turns = .dec :: ts → s.refill = .idle → step s = .next { s with turns := ts })
end

