-- ==== Sys2Proof/Laws/State.lean ====
section
/-! SUPPORT. One lemma for each named update of State and each field: what the field holds after it. -/

namespace Sys2Proof.Machine

@[simp] theorem giveResult_fb (v : Value) (s : State) : (giveResult v s).fb = s.fb := rfl
@[simp] theorem giveResult_encN (v : Value) (s : State) : (giveResult v s).encN = s.encN := rfl
@[simp] theorem giveResult_encDone (v : Value) (s : State) : (giveResult v s).encDone = s.encDone := rfl
@[simp] theorem giveResult_sb (v : Value) (s : State) : (giveResult v s).sb = s.sb := rfl
@[simp] theorem giveResult_decCnt (v : Value) (s : State) : (giveResult v s).decCnt = s.decCnt := rfl
@[simp] theorem giveResult_decRd (v : Value) (s : State) : (giveResult v s).decRd = s.decRd := rfl
@[simp] theorem giveResult_decState (v : Value) (s : State) : (giveResult v s).decState = s.decState := rfl
@[simp] theorem giveResult_decCause (v : Value) (s : State) : (giveResult v s).decCause = s.decCause := rfl
@[simp] theorem giveResult_decInfo (v : Value) (s : State) : (giveResult v s).decInfo = s.decInfo := rfl
@[simp] theorem giveResult_refill (v : Value) (s : State) : (giveResult v s).refill = s.refill := rfl
@[simp] theorem giveResult_encIn (v : Value) (s : State) : (giveResult v s).encIn = s.encIn := rfl
@[simp] theorem giveResult_encOut (v : Value) (s : State) : (giveResult v s).encOut = s.encOut := rfl
@[simp] theorem giveResult_decIn (v : Value) (s : State) : (giveResult v s).decIn = s.decIn := rfl
@[simp] theorem giveResult_decOut (v : Value) (s : State) : (giveResult v s).decOut = s.decOut := rfl
@[simp] theorem giveResult_turns (v : Value) (s : State) : (giveResult v s).turns = s.turns := rfl
@[simp] theorem giveResult_result (v : Value) (s : State) : (giveResult v s).result = v := rfl

@[simp] theorem putTokens_fb (ts : List OutToken) (s : State) : (putTokens ts s).fb = s.fb := rfl
@[simp] theorem putTokens_encN (ts : List OutToken) (s : State) : (putTokens ts s).encN = s.encN := rfl
@[simp] theorem putTokens_encDone (ts : List OutToken) (s : State) : (putTokens ts s).encDone = s.encDone := rfl
@[simp] theorem putTokens_sb (ts : List OutToken) (s : State) : (putTokens ts s).sb = s.sb := rfl
@[simp] theorem putTokens_decCnt (ts : List OutToken) (s : State) : (putTokens ts s).decCnt = s.decCnt := rfl
@[simp] theorem putTokens_decRd (ts : List OutToken) (s : State) : (putTokens ts s).decRd = s.decRd := rfl
@[simp] theorem putTokens_decState (ts : List OutToken) (s : State) : (putTokens ts s).decState = s.decState := rfl
@[simp] theorem putTokens_decCause (ts : List OutToken) (s : State) : (putTokens ts s).decCause = s.decCause := rfl
@[simp] theorem putTokens_decInfo (ts : List OutToken) (s : State) : (putTokens ts s).decInfo = s.decInfo := rfl
@[simp] theorem putTokens_refill (ts : List OutToken) (s : State) : (putTokens ts s).refill = s.refill := rfl
@[simp] theorem putTokens_encIn (ts : List OutToken) (s : State) : (putTokens ts s).encIn = s.encIn := rfl
@[simp] theorem putTokens_encOut (ts : List OutToken) (s : State) : (putTokens ts s).encOut = s.encOut ++ ts := rfl
@[simp] theorem putTokens_decIn (ts : List OutToken) (s : State) : (putTokens ts s).decIn = s.decIn := rfl
@[simp] theorem putTokens_decOut (ts : List OutToken) (s : State) : (putTokens ts s).decOut = s.decOut := rfl
@[simp] theorem putTokens_turns (ts : List OutToken) (s : State) : (putTokens ts s).turns = s.turns := rfl
@[simp] theorem putTokens_result (ts : List OutToken) (s : State) : (putTokens ts s).result = s.result := rfl

@[simp] theorem respond_fb (r : Response) (s : State) : (respond r s).fb = s.fb := rfl
@[simp] theorem respond_encN (r : Response) (s : State) : (respond r s).encN = s.encN := rfl
@[simp] theorem respond_encDone (r : Response) (s : State) : (respond r s).encDone = s.encDone := rfl
@[simp] theorem respond_sb (r : Response) (s : State) : (respond r s).sb = s.sb := rfl
@[simp] theorem respond_decCnt (r : Response) (s : State) : (respond r s).decCnt = s.decCnt := rfl
@[simp] theorem respond_decRd (r : Response) (s : State) : (respond r s).decRd = s.decRd := rfl
@[simp] theorem respond_decState (r : Response) (s : State) : (respond r s).decState = s.decState := rfl
@[simp] theorem respond_decCause (r : Response) (s : State) : (respond r s).decCause = s.decCause := rfl
@[simp] theorem respond_decInfo (r : Response) (s : State) : (respond r s).decInfo = s.decInfo := rfl
@[simp] theorem respond_refill (r : Response) (s : State) : (respond r s).refill = s.refill := rfl
@[simp] theorem respond_encIn (r : Response) (s : State) : (respond r s).encIn = s.encIn := rfl
@[simp] theorem respond_encOut (r : Response) (s : State) : (respond r s).encOut = s.encOut := rfl
@[simp] theorem respond_decIn (r : Response) (s : State) : (respond r s).decIn = s.decIn := rfl
@[simp] theorem respond_decOut (r : Response) (s : State) : (respond r s).decOut = s.decOut ++ [r] := rfl
@[simp] theorem respond_turns (r : Response) (s : State) : (respond r s).turns = s.turns := rfl
@[simp] theorem respond_result (r : Response) (s : State) : (respond r s).result = s.result := rfl

@[simp] theorem storeFB_fb (v : Sample) (s : State) : (storeFB v s).fb = s.fb.set s.encN.val v s.encN.isLt := rfl
@[simp] theorem storeFB_encN (v : Sample) (s : State) : (storeFB v s).encN = s.encN := rfl
@[simp] theorem storeFB_encDone (v : Sample) (s : State) : (storeFB v s).encDone = s.encDone := rfl
@[simp] theorem storeFB_sb (v : Sample) (s : State) : (storeFB v s).sb = s.sb := rfl
@[simp] theorem storeFB_decCnt (v : Sample) (s : State) : (storeFB v s).decCnt = s.decCnt := rfl
@[simp] theorem storeFB_decRd (v : Sample) (s : State) : (storeFB v s).decRd = s.decRd := rfl
@[simp] theorem storeFB_decState (v : Sample) (s : State) : (storeFB v s).decState = s.decState := rfl
@[simp] theorem storeFB_decCause (v : Sample) (s : State) : (storeFB v s).decCause = s.decCause := rfl
@[simp] theorem storeFB_decInfo (v : Sample) (s : State) : (storeFB v s).decInfo = s.decInfo := rfl
@[simp] theorem storeFB_refill (v : Sample) (s : State) : (storeFB v s).refill = s.refill := rfl
@[simp] theorem storeFB_encIn (v : Sample) (s : State) : (storeFB v s).encIn = s.encIn := rfl
@[simp] theorem storeFB_encOut (v : Sample) (s : State) : (storeFB v s).encOut = s.encOut := rfl
@[simp] theorem storeFB_decIn (v : Sample) (s : State) : (storeFB v s).decIn = s.decIn := rfl
@[simp] theorem storeFB_decOut (v : Sample) (s : State) : (storeFB v s).decOut = s.decOut := rfl
@[simp] theorem storeFB_turns (v : Sample) (s : State) : (storeFB v s).turns = s.turns := rfl
@[simp] theorem storeFB_result (v : Sample) (s : State) : (storeFB v s).result = s.result := rfl

@[simp] theorem raiseDecFault_fb (c : DecCause) (d : BitVec 12) (s : State) : (raiseDecFault c d s).fb = s.fb := rfl
@[simp] theorem raiseDecFault_encN (c : DecCause) (d : BitVec 12) (s : State) : (raiseDecFault c d s).encN = s.encN := rfl
@[simp] theorem raiseDecFault_encDone (c : DecCause) (d : BitVec 12) (s : State) : (raiseDecFault c d s).encDone = s.encDone := rfl
@[simp] theorem raiseDecFault_sb (c : DecCause) (d : BitVec 12) (s : State) : (raiseDecFault c d s).sb = s.sb := rfl
@[simp] theorem raiseDecFault_decCnt (c : DecCause) (d : BitVec 12) (s : State) : (raiseDecFault c d s).decCnt = 0 := rfl
@[simp] theorem raiseDecFault_decRd (c : DecCause) (d : BitVec 12) (s : State) : (raiseDecFault c d s).decRd = 0 := rfl
@[simp] theorem raiseDecFault_decState (c : DecCause) (d : BitVec 12) (s : State) : (raiseDecFault c d s).decState = .faulted := rfl
@[simp] theorem raiseDecFault_decCause (c : DecCause) (d : BitVec 12) (s : State) : (raiseDecFault c d s).decCause = c := rfl
@[simp] theorem raiseDecFault_decInfo (c : DecCause) (d : BitVec 12) (s : State) : (raiseDecFault c d s).decInfo = d := rfl
@[simp] theorem raiseDecFault_refill (c : DecCause) (d : BitVec 12) (s : State) : (raiseDecFault c d s).refill = s.refill := rfl
@[simp] theorem raiseDecFault_encIn (c : DecCause) (d : BitVec 12) (s : State) : (raiseDecFault c d s).encIn = s.encIn := rfl
@[simp] theorem raiseDecFault_encOut (c : DecCause) (d : BitVec 12) (s : State) : (raiseDecFault c d s).encOut = s.encOut := rfl
@[simp] theorem raiseDecFault_decIn (c : DecCause) (d : BitVec 12) (s : State) : (raiseDecFault c d s).decIn = s.decIn := rfl
@[simp] theorem raiseDecFault_decOut (c : DecCause) (d : BitVec 12) (s : State) : (raiseDecFault c d s).decOut = s.decOut := rfl
@[simp] theorem raiseDecFault_turns (c : DecCause) (d : BitVec 12) (s : State) : (raiseDecFault c d s).turns = s.turns := rfl
@[simp] theorem raiseDecFault_result (c : DecCause) (d : BitVec 12) (s : State) : (raiseDecFault c d s).result = s.result := rfl

@[simp] theorem resetEnc_fb (s : State) : (resetEnc s).fb = s.fb := rfl
@[simp] theorem resetEnc_encN (s : State) : (resetEnc s).encN = 0 := rfl
@[simp] theorem resetEnc_encDone (s : State) : (resetEnc s).encDone = false := rfl
@[simp] theorem resetEnc_sb (s : State) : (resetEnc s).sb = s.sb := rfl
@[simp] theorem resetEnc_decCnt (s : State) : (resetEnc s).decCnt = s.decCnt := rfl
@[simp] theorem resetEnc_decRd (s : State) : (resetEnc s).decRd = s.decRd := rfl
@[simp] theorem resetEnc_decState (s : State) : (resetEnc s).decState = s.decState := rfl
@[simp] theorem resetEnc_decCause (s : State) : (resetEnc s).decCause = s.decCause := rfl
@[simp] theorem resetEnc_decInfo (s : State) : (resetEnc s).decInfo = s.decInfo := rfl
@[simp] theorem resetEnc_refill (s : State) : (resetEnc s).refill = s.refill := rfl
@[simp] theorem resetEnc_encIn (s : State) : (resetEnc s).encIn = s.encIn := rfl
@[simp] theorem resetEnc_encOut (s : State) : (resetEnc s).encOut = s.encOut := rfl
@[simp] theorem resetEnc_decIn (s : State) : (resetEnc s).decIn = s.decIn := rfl
@[simp] theorem resetEnc_decOut (s : State) : (resetEnc s).decOut = s.decOut := rfl
@[simp] theorem resetEnc_turns (s : State) : (resetEnc s).turns = s.turns := rfl
@[simp] theorem resetEnc_result (s : State) : (resetEnc s).result = s.result := rfl

@[simp] theorem resetDec_fb (s : State) : (resetDec s).fb = s.fb := rfl
@[simp] theorem resetDec_encN (s : State) : (resetDec s).encN = s.encN := rfl
@[simp] theorem resetDec_encDone (s : State) : (resetDec s).encDone = s.encDone := rfl
@[simp] theorem resetDec_sb (s : State) : (resetDec s).sb = s.sb := rfl
@[simp] theorem resetDec_decCnt (s : State) : (resetDec s).decCnt = 0 := rfl
@[simp] theorem resetDec_decRd (s : State) : (resetDec s).decRd = 0 := rfl
@[simp] theorem resetDec_decState (s : State) : (resetDec s).decState = .empty := rfl
@[simp] theorem resetDec_decCause (s : State) : (resetDec s).decCause = .none := rfl
@[simp] theorem resetDec_decInfo (s : State) : (resetDec s).decInfo = 0#12 := rfl
@[simp] theorem resetDec_refill (s : State) : (resetDec s).refill = s.refill := rfl
@[simp] theorem resetDec_encIn (s : State) : (resetDec s).encIn = s.encIn := rfl
@[simp] theorem resetDec_encOut (s : State) : (resetDec s).encOut = s.encOut := rfl
@[simp] theorem resetDec_decIn (s : State) : (resetDec s).decIn = s.decIn := rfl
@[simp] theorem resetDec_decOut (s : State) : (resetDec s).decOut = s.decOut := rfl
@[simp] theorem resetDec_turns (s : State) : (resetDec s).turns = s.turns := rfl
@[simp] theorem resetDec_result (s : State) : (resetDec s).result = s.result := rfl

end Sys2Proof.Machine
end

