-- ==== Sys2Proof/Laws/Ops.lean ====
section
/-! SUPPORT. One law for each shared operation: all that it can do. Proofs cite these and do not unfold the operation. -/

namespace Sys2Proof.Machine

/-! ### Domains -/

@[simp] theorem frameOk_iff (n : Nat) : frameOk n = true ↔ 1 ≤ n ∧ n ≤ 16 := by simp [frameOk]

@[simp] theorem divisorOk_iff (k : Nat) : divisorOk k = true ↔ k ≤ 13 := by simp [divisorOk]

@[simp] theorem shiftOk_iff (sh : Nat) : shiftOk sh = true ↔ 1 ≤ sh ∧ sh ≤ 14 := by simp [shiftOk]

@[simp] theorem nibbleOk_iff (q : Int) : nibbleOk q = true ↔ -8 ≤ q ∧ q ≤ 7 := by simp [nibbleOk]

@[simp] theorem inI16_iff (v : Int) : inI16 v = true ↔ -32768 ≤ v ∧ v ≤ 32767 := by simp [inI16]

@[simp] theorem reservedShift_iff (sh : Nat) : reservedShift sh = true ↔ sh = 0 ∨ sh = 15 := by
  simp [reservedShift]

theorem reservedShift_false_iff (sh : Nat) : reservedShift sh = false ↔ sh ≠ 0 ∧ sh ≠ 15 := by
  rw [Bool.eq_false_iff, Ne, reservedShift_iff, not_or]

/-- An operation with a domain runs inside it and is refused outside it. -/
theorem returnsIf_eq (ok : Bool) (why : Refusal) (v : Value) (s : State) :
    (ok = true ∧ returnsIf ok why v s = .next (giveResult v s)) ∨
    (ok = false ∧ returnsIf ok why v s = .refused why) := by
  cases ok <;> simp [returnsIf]

/-! ### Fields of a byte -/

theorem hiNib_toNat (b : Byte) : (hiNib b).toNat = b.toNat / 16 := by
  simp [hiNib, Nat.shiftRight_eq_div_pow]; omega

theorem loNib_toNat (b : Byte) : (loNib b).toNat = b.toNat % 16 := by
  simp [loNib]

theorem joinNibs_toNat (a b : Nib) : (joinNibs a b).toNat = a.toNat * 16 + b.toNat := by
  rw [joinNibs, BitVec.toNat_append, ← Nat.shiftLeft_add_eq_or_of_lt b.isLt, Nat.shiftLeft_eq]

@[simp] theorem hiNib_joinNibs (a b : Nib) : hiNib (joinNibs a b) = a := by
  apply BitVec.eq_of_toNat_eq; rw [hiNib_toNat, joinNibs_toNat]; omega

@[simp] theorem loNib_joinNibs (a b : Nib) : loNib (joinNibs a b) = b := by
  apply BitVec.eq_of_toNat_eq; rw [loNib_toNat, joinNibs_toNat]; omega

@[simp] theorem joinNibs_hi_lo (b : Byte) : joinNibs (hiNib b) (loNib b) = b := by
  apply BitVec.eq_of_toNat_eq; rw [joinNibs_toNat, hiNib_toNat, loNib_toNat]; omega

theorem shiftOf_eq (h : Byte) : shiftOf h = h.toNat / 16 := hiNib_toNat h

theorem shiftOf_lt (h : Byte) : shiftOf h < 16 := by
  have := h.isLt; rw [shiftOf_eq]; omega

/-! ### Ports -/

theorem readT9_byte (b : Byte) : readT9 (t9Word (.byte b)) = some b := by
  have h : (t9Word (.byte b)).toNat = b.toNat := by
    rw [t9Word, BitVec.toNat_append]; simp
  have hb := b.isLt
  have h8 : (t9Word (.byte b)).getLsbD 8 = false := by
    rw [BitVec.getLsbD, h]; exact Nat.testBit_lt_two_pow hb
  rw [readT9, h8]
  simp only [Bool.false_eq_true, ↓reduceIte, Option.some.injEq]
  apply BitVec.eq_of_toNat_eq
  simp [h]; omega

/-- What `Take` does: `End` removes nothing, a byte is the head of the words and is removed. -/
theorem takeWord_cases (ws : List (BitVec 9)) :
    (answersEnd ws = true ∧ takeWord ws = (none, ws)) ∨
    ∃ w rest b, ws = w :: rest ∧ answersEnd ws = false ∧ readT9 w = some b ∧ takeWord ws = (some b, rest) := by
  cases ws with
  | nil => exact .inl ⟨rfl, rfl⟩
  | cons w rest =>
    cases h : w[8] with
    | true => left; simp [answersEnd, takeWord, readT9, h]
    | false => right; exact ⟨w, rest, w.extractLsb' 0 8, rfl, by simp [answersEnd, h], by simp [readT9, h],
        by simp [takeWord, readT9, h]⟩

theorem takeWord_end {ws : List (BitVec 9)} (h : answersEnd ws = true) : takeWord ws = (none, ws) := by
  obtain ⟨_, e⟩ | ⟨w, rest, b, _, e, _⟩ := takeWord_cases ws
  · exact e
  · simp [h] at e

@[simp] theorem takeWord_byte (b : Byte) (ws : List (BitVec 9)) :
    takeWord (t9Word (.byte b) :: ws) = (some b, ws) := by
  simp [takeWord, readT9_byte]

theorem takeWord_suffix (ws : List (BitVec 9)) :
    (takeWord ws).2 <:+ ws ∧ ws.length ≤ (takeWord ws).2.length + 1 := by
  obtain ⟨_, e⟩ | ⟨w, rest, b, rfl, _, _, e⟩ := takeWord_cases ws <;> simp [e]

theorem takeBytes_suffix (n : Nat) (ws : List (BitVec 9)) :
    (takeBytes n ws).2 <:+ ws ∧ ws.length ≤ (takeBytes n ws).2.length + n ∧ (takeBytes n ws).1.length ≤ n := by
  induction n generalizing ws with
  | zero => simp [takeBytes]
  | succ n ih =>
    obtain ⟨_, e⟩ | ⟨w, rest, b, rfl, _, _, e⟩ := takeWord_cases ws
    · simp [takeBytes, e]
    · obtain ⟨h1, h2, h3⟩ := ih rest
      simp only [takeBytes, e, List.length_cons]
      exact ⟨h1.trans (List.suffix_cons ..), by omega, by omega⟩

theorem takeBytes_end (n : Nat) {ws : List (BitVec 9)} (h : answersEnd ws = true) :
    takeBytes n ws = ([], ws) := by
  cases n <;> simp [takeBytes, takeWord_end h]

/-- `n` `Take`s on the words of `bs` before an `End`, or of at least `n` bytes, give the first `n` of them. -/
theorem takeBytes_wordsOf (n : Nat) (bs : List Byte) (rest : List (BitVec 9))
    (h : n ≤ bs.length ∨ answersEnd rest = true) :
    takeBytes n (wordsOf bs ++ rest) = (bs.take n, wordsOf (bs.drop n) ++ rest) := by
  induction n generalizing bs with
  | zero => simp [takeBytes]
  | succ n ih =>
    cases bs with
    | nil =>
      have hr : answersEnd rest = true := h.resolve_left (by simp)
      simp [wordsOf, takeBytes_end _ hr]
    | cons b bs =>
      have := ih bs (h.imp (by simp) id)
      simp only [wordsOf, List.map_cons, List.cons_append, takeBytes, takeWord_byte] at this ⊢
      simp [this]

/-! ### Buffers -/

theorem storeFrom_getElem (vs : List Int) (start : Nat) (sb : Vector Sample 16) (i : Nat) (hi : i < 16) :
    (storeFrom start vs sb)[i] = if start ≤ i then ((vs[i - start]?).map toSample).getD sb[i] else sb[i] := by
  induction vs generalizing start sb with
  | nil => simp [storeFrom]
  | cons v vs ih =>
    rw [storeFrom, ih]
    by_cases h1 : start + 1 ≤ i
    · have h2 : start ≤ i := by omega
      have h3 : i - start = (i - (start + 1)) + 1 := by omega
      have h4 : start ≠ i := by omega
      simp [h1, h2, h3, h4]
    · by_cases h2 : start = i
      · subst h2; simp
      · have h3 : ¬ start ≤ i := by omega
        simp [h1, h3, h2]

@[simp] theorem frameOf_length {cnt : Nat} (s : State) (h : cnt ≤ 16) : (frameOf cnt s).length = cnt := by
  simp [frameOf, h]

end Sys2Proof.Machine
end

