-- ==== Sys2Proof/Laws/Encoder.lean ====
section
/-! SUPPORT. What the operations of the selector, the quantizer and the encoder do, one law each. -/

namespace Sys2Proof.Machine

/-! ### Selector -/

/-- The leading zeros of the low `n` bits, by the place of the top one bit. -/
theorem leadingZeros_spec (u : BitVec 16) (n : Nat) :
    (u.toNat % 2 ^ n = 0 ∧ leadingZeros u n = n) ∨
    (leadingZeros u n < n ∧ 2 ^ (n - 1 - leadingZeros u n) ≤ u.toNat % 2 ^ n ∧
      u.toNat % 2 ^ n < 2 ^ (n - leadingZeros u n)) := by
  induction n with
  | zero => left; simp [leadingZeros, Nat.mod_one]
  | succ n ih =>
    have hm := Nat.mod_pow_succ (b := 2) (k := n) (x := u.toNat)
    have hlt : u.toNat % 2 ^ n < 2 ^ n := Nat.mod_lt _ (by positivity)
    have hbit : u.getLsbD n = decide (u.toNat / 2 ^ n % 2 = 1) := by
      rw [BitVec.getLsbD, Nat.testBit_eq_decide_div_mod_eq]
    rw [leadingZeros]
    by_cases hb : u.toNat / 2 ^ n % 2 = 1
    · right
      rw [hbit, decide_eq_true hb, if_pos rfl]
      rw [hb, mul_one] at hm
      have : 2 ^ (n + 1) = 2 * 2 ^ n := by ring
      simp only [Nat.add_sub_cancel, Nat.sub_zero]
      omega
    · have h0 : u.toNat / 2 ^ n % 2 = 0 := by omega
      have e : u.toNat % 2 ^ (n + 1) = u.toNat % 2 ^ n := by rw [hm, h0]; simp
      rw [hbit, e]
      simp only [hb, decide_false, Bool.false_eq_true, if_false]
      obtain ⟨h1, h2⟩ | ⟨h1, h2, h3⟩ := ih
      · left; omega
      · right
        have e1 : n + 1 - 1 - (1 + leadingZeros u n) = n - 1 - leadingZeros u n := by omega
        have e2 : n + 1 - (1 + leadingZeros u n) = n - leadingZeros u n := by omega
        rw [e1, e2]; omega

/-- `clz16` by comparison with powers of two. -/
theorem le_clz16_iff (u : BitVec 16) {z : Nat} (hz : z ≤ 16) : z ≤ clz16 u ↔ u.toNat < 2 ^ (16 - z) := by
  have e : u.toNat % 2 ^ 16 = u.toNat := Nat.mod_eq_of_lt u.isLt
  have hs := leadingZeros_spec u 16
  rw [e] at hs
  change _ ∨ clz16 u < 16 ∧ _ at hs
  obtain ⟨h1, h2⟩ | ⟨h1, h2, h3⟩ := hs
  · rw [h1, clz16, h2]; exact ⟨fun _ => by positivity, fun _ => hz⟩
  · change 2 ^ (16 - 1 - clz16 u) ≤ _ at h2
    change _ < 2 ^ (16 - clz16 u) at h3
    constructor
    · intro h
      have : 2 ^ (16 - clz16 u) ≤ 2 ^ (16 - z) := Nat.pow_le_pow_right (by norm_num) (by omega)
      omega
    · intro h
      by_contra hc
      have : 2 ^ (16 - z) ≤ 2 ^ (16 - 1 - clz16 u) := Nat.pow_le_pow_right (by norm_num) (by omega)
      omega

/-- `MAG16` of a sample that is not negative. -/
theorem mag16_nonneg {x : Sample} (h : 0 ≤ x.toInt) : mag16 x = x ∧ ((mag16 x).toNat : Int) = x.toInt := by
  have : ¬ x.toInt < 0 := by omega
  rw [mag16, if_neg this]
  refine ⟨rfl, ?_⟩
  rw [BitVec.toInt_eq_toNat_cond] at *
  split at h <;> (simp_all; try omega)

theorem mag16_neg {x : Sample} (h : x.toInt < 0) : mag16 x = ~~~x ∧ ((mag16 x).toNat : Int) = -x.toInt - 1 := by
  rw [mag16, if_pos h, not16]
  refine ⟨rfl, ?_⟩
  have := x.isLt
  rw [BitVec.toInt_eq_toNat_cond] at *
  rw [BitVec.toNat_not]
  split at h
  · omega
  · rename_i h2; simp only [h2, if_false]; omega

theorem mag16_lt (x : Sample) : (mag16 x).toNat < 2 ^ 15 := by
  have h1 := BitVec.le_toInt x
  have h2 := BitVec.toInt_lt (x := x)
  by_cases h : 0 ≤ x.toInt
  · have := (mag16_nonneg h).2; omega
  · have := (mag16_neg (x := x) (by omega)).2; omega

/-- `NEEDED` by comparison of the magnitude view with powers of two. -/
theorem needed_le_iff (x : Sample) {k : Nat} (hk : 1 ≤ k) (hk' : k ≤ 13) :
    needed x ≤ k ↔ (mag16 x).toNat < 2 ^ (k + 2) := by
  have h := le_clz16_iff (mag16 x) (z := 14 - k) (by omega)
  rw [show 16 - (14 - k) = k + 2 by omega] at h
  rw [← h]
  simp only [needed, Config.neededBase, Config.clzClamp]
  omega

theorem needed_bounds (x : Sample) : 1 ≤ needed x ∧ needed x ≤ 13 := by
  have h := (needed_le_iff x (k := 13) (by omega) (by omega)).mpr (by have := mag16_lt x; omega)
  refine ⟨?_, h⟩
  simp only [needed, Config.neededBase, Config.clzClamp]
  omega

/-- The best value of `SELECT`'s loop is one of the values counted, or the one it started with. -/
theorem tally_best_mem (vs : List Nat) (t : Tally) :
    (vs.foldl tallyNext t).best = t.best ∨ (vs.foldl tallyNext t).best ∈ vs := by
  induction vs generalizing t with
  | nil => exact .inl rfl
  | cons v vs ih =>
    rw [List.foldl_cons]
    obtain h | h := ih (tallyNext t v)
    · rw [h]; simp only [tallyNext]; split <;> simp
    · exact .inr (List.mem_cons_of_mem v h)

/-- `SELECT` answers the needed exponent of one of the frame's samples. -/
theorem select_mem {f : List Sample} (h : f ≠ []) : ∃ x ∈ f, select f = needed x := by
  cases f with
  | nil => exact absurd rfl h
  | cons x f =>
    rw [select, List.map_cons, List.foldl_cons, show tallyNext ⟨[], 0, 0⟩ (needed x) = ⟨[needed x], needed x, 1⟩ from rfl]
    obtain h | h := tally_best_mem (f.map needed) ⟨[needed x], needed x, 1⟩
    · exact ⟨x, by simp, h⟩
    · obtain ⟨y, hy, e⟩ := List.mem_map.mp h
      exact ⟨y, List.mem_cons_of_mem x hy, e.symm⟩

theorem select_bounds {f : List Sample} (h : f ≠ []) : 1 ≤ select f ∧ select f ≤ 13 := by
  obtain ⟨x, -, e⟩ := select_mem h
  rw [e]; exact needed_bounds x

/-! ### Quantizer -/

theorem two_pow_pred {k : Nat} (hk : 1 ≤ k) : 2 ^ k = 2 * 2 ^ (k - 1) := by
  obtain ⟨j, rfl⟩ : ∃ j, k = j + 1 := ⟨k - 1, by omega⟩
  rw [Nat.add_sub_cancel]; ring

/-- `RHAZ` for `k >= 1`, by its quotient of the magnitude. -/
theorem rhaz_spec (x : Sample) {k : Nat} (hk : 1 ≤ k) : ∃ r : Nat,
    rhaz x k = (if 0 ≤ x.toInt then (r : Int) else -r) ∧
    r * 2 ^ k ≤ x.toInt.natAbs + 2 ^ (k - 1) ∧ x.toInt.natAbs + 2 ^ (k - 1) < r * 2 ^ k + 2 ^ k := by
  refine ⟨_, by rw [rhaz, if_neg (by omega)], Nat.div_mul_le_self _ _, ?_⟩
  have := Nat.lt_div_mul_add (a := x.toInt.natAbs + 2 ^ (k - 1)) (b := 2 ^ k) (by positivity)
  exact this

theorem sext4_nib4 {q : Int} (h1 : -8 ≤ q) (h2 : q ≤ 7) : sext4 (nib4 q) = q := by
  have : q = -8 ∨ q = -7 ∨ q = -6 ∨ q = -5 ∨ q = -4 ∨ q = -3 ∨ q = -2 ∨ q = -1 ∨ q = 0 ∨ q = 1 ∨ q = 2 ∨ q = 3 ∨
    q = 4 ∨ q = 5 ∨ q = 6 ∨ q = 7 := by omega
  rcases this with rfl | rfl | rfl | rfl | rfl | rfl | rfl | rfl | rfl | rfl | rfl | rfl | rfl | rfl | rfl | rfl <;> decide

theorem sext4_bounds (n : Nib) : -8 ≤ sext4 n ∧ sext4 n ≤ 7 := by
  have := n.isLt; rw [sext4]; split <;> omega

theorem nib4_toNat {q : Int} (h1 : -8 ≤ q) (h2 : q ≤ 7) :
    ((nib4 q).toNat : Int) = if 0 ≤ q then q else q + 16 := by
  have := sext4_nib4 h1 h2
  have hl := (nib4 q).isLt
  rw [sext4] at this
  split at this <;> split <;> omega

theorem nib4_sext4 (n : Nib) : nib4 (sext4 n) = n := by revert n; decide

theorem quant_eq (x : Sample) (sh : Nat) : quant x sh = max (-8) (min 7 (rhaz x (sh - 1))) := rfl

theorem quant_bounds (x : Sample) (sh : Nat) : -8 ≤ quant x sh ∧ quant x sh ≤ 7 := by
  rw [quant_eq]; omega

/-! ### Blocks and streams -/

theorem packSeq_length (ns : List Nib) : (packSeq ns).length = (ns.length + 1) / 2 := by
  induction ns using packSeq.induct with
  | case1 => rfl
  | case2 a => simp [packSeq]
  | case3 a b rest ih => simp only [packSeq, List.length_cons, ih]; omega

theorem hdr_toNat {sh : Nat} (h : sh ≤ 15) : (hdr sh).toNat = sh * 16 := by
  rw [hdr, joinNibs_toNat]; simp; omega

theorem loNib_hdr (sh : Nat) : loNib (hdr sh) = 0#4 := by simp [hdr]

theorem shiftOf_hdr {sh : Nat} (h : sh ≤ 15) : shiftOf (hdr sh) = sh := by
  rw [shiftOf_eq, hdr_toNat h]; omega

/-- The number of frames allowed does not matter once it covers the samples. -/
theorem encodeUpTo_enough (n : Nat) (xs : List Sample) (h : xs.length ≤ 16 * n) (m : Nat) (hm : xs.length ≤ 16 * m) :
    encodeUpTo n xs = encodeUpTo m xs := by
  induction n generalizing xs m with
  | zero =>
    have : xs = [] := List.eq_nil_of_length_eq_zero (by omega)
    subst this
    cases m <;> simp [encodeUpTo]
  | succ n ih =>
    rcases xs with _ | ⟨x, xs⟩
    · cases m <;> simp [encodeUpTo]
    · cases m with
      | zero => simp at hm
      | succ m =>
        simp only [encodeUpTo, List.isEmpty_cons, Bool.false_eq_true, if_false, Config.frameLen]
        rw [ih _ (by simp at *; omega) m (by simp at *; omega)]

theorem encodeStream_nil : encodeStream [] = [] := rfl

/-- R163's own equation. -/
theorem encodeStream_cons {xs : List Sample} (h : xs ≠ []) :
    encodeStream xs = encodeFrame (xs.take 16) ++ encodeStream (xs.drop 16) := by
  rw [encodeStream, encodeUpTo_enough xs.length xs (by omega) (xs.length + 1) (by omega), encodeUpTo,
    if_neg (by simpa using h), encodeStream]
  congr 1
  exact encodeUpTo_enough _ _ (by simp only [List.length_drop, Config.frameLen]; omega) _ (by simp only [List.length_drop, Config.frameLen]; omega)

theorem encodeStream_short {xs : List Sample} (h : xs ≠ []) (h16 : xs.length ≤ 16) :
    encodeStream xs = encodeFrame xs := by
  rw [encodeStream_cons h, List.take_of_length_le h16, List.drop_of_length_le h16, encodeStream_nil, List.append_nil]

/-! ### Tokens -/

/-- What an operation with a domain answers, if it answers a next state. -/
theorem returnsIf_next {ok : Bool} {why : Refusal} {v : Value} {s t : State} (h : returnsIf ok why v s = .next t) :
    t = giveResult v s := by
  obtain ⟨_, e⟩ | ⟨_, e⟩ := returnsIf_eq ok why v s <;> rw [e] at h <;> cases h; rfl

/-- What `ENC.PUSH` leaves alone. -/
theorem encPush_frame {x : Sample} {s t : State} (h : execEncPush x s = .next t) :
    s.encDone = false ∧ t = { s with fb := t.fb, encN := t.encN, encOut := t.encOut } ∧ s.encOut <+: t.encOut := by
  rw [execEncPush] at h
  cases hd : s.encDone with
  | true => simp [hd] at h
  | false =>
    simp only [hd, Bool.false_eq_true, if_false] at h
    split at h <;> cases h
    · exact ⟨rfl, by simp [emitBlock, putTokens, storeFB, hd], List.prefix_append ..⟩
    · exact ⟨rfl, by simp [storeFB, hd], List.prefix_refl _⟩

/-- What `ENC.END` leaves alone. -/
theorem encEnd_frame {w : BitVec 16} {s t : State} (h : execEncEnd w s = .next t) :
    s.encDone = false ∧ t = { s with encN := 0, encDone := true, encOut := t.encOut } ∧ s.encOut <+: t.encOut := by
  rw [execEncEnd] at h
  cases hd : s.encDone with
  | true => simp [hd] at h
  | false =>
    simp only [hd, Bool.false_eq_true, if_false] at h
    split at h <;> cases h
    · refine ⟨rfl, rfl, ?_⟩
      show _ <+: (s.encOut ++ _) ++ _
      rw [List.append_assoc]; exact List.prefix_append ..
    · have : s.encN = 0 := by apply Fin.ext; show _ = 0; omega
      refine ⟨rfl, ?_, List.prefix_append ..⟩
      simp [putTokens, this]

end Sys2Proof.Machine
end

