-- ==== Sys2Proof/Laws/Decoder.lean ====
section
/-! SUPPORT. What the operations of the decoder do, one law each. -/

namespace Sys2Proof.Machine

/-! ### Values and streams -/

theorem unpackAll_length (sh : Nat) (ds : List Byte) : (unpackAll sh ds).length = 2 * ds.length := by
  induction ds with
  | nil => rfl
  | cons b ds ih => simp only [unpackAll, List.length_cons, ih]; omega

theorem unpackAll_append (sh : Nat) (ds es : List Byte) :
    unpackAll sh (ds ++ es) = unpackAll sh ds ++ unpackAll sh es := by
  induction ds with
  | nil => rfl
  | cons b ds ih => simp [unpackAll, ih]

theorem firstOverflow_none {vs : List Int} : firstOverflow vs = none ↔ ∀ v ∈ vs, -32768 ≤ v ∧ v ≤ 32767 := by
  simp only [firstOverflow, List.findIdx?_eq_none_iff, Bool.not_eq_eq_eq_not, Bool.not_false, inI16_iff]

theorem firstOverflow_some {vs : List Int} {j : Nat} {v : Int} (h : vs[j]? = some v)
    (hv : ¬ (-32768 ≤ v ∧ v ≤ 32767)) (hlt : ∀ i w, i < j → vs[i]? = some w → -32768 ≤ w ∧ w ≤ 32767) :
    firstOverflow vs = some j := by
  rw [firstOverflow, List.findIdx?_eq_some_iff_getElem]
  obtain ⟨hj, rfl⟩ := List.getElem?_eq_some_iff.mp h
  refine ⟨hj, by simp [inI16, Config.sampleMin, Config.sampleMax]; omega, fun i hi => ?_⟩
  have := hlt i _ hi (List.getElem?_eq_getElem (by omega))
  simpa [inI16] using this

theorem toSample_toInt {v : Int} (h1 : -32768 ≤ v) (h2 : v ≤ 32767) : (toSample v).toInt = v := by
  rw [toSample, BitVec.toInt_ofInt, Int.bmod_def]; split <;> omega

theorem recon_bounds (n : Nib) {sh : Nat} (h1 : 1 ≤ sh) (h13 : sh ≤ 13) :
    -32768 ≤ recon n sh ∧ recon n sh ≤ 32767 := by
  have := sext4_bounds n
  have hp : (2 : Int) ^ (sh - 1) ≤ 2 ^ 12 := pow_le_pow_right₀ (by norm_num) (by omega)
  have hp0 : (0 : Int) < 2 ^ (sh - 1) := by positivity
  rw [recon]; constructor <;> nlinarith

theorem unpackAll_inI16 {sh : Nat} (h1 : 1 ≤ sh) (h13 : sh ≤ 13) (ds : List Byte) :
    ∀ v ∈ unpackAll sh ds, -32768 ≤ v ∧ v ≤ 32767 := by
  induction ds with
  | nil => simp [unpackAll]
  | cons b ds ih =>
    intro v hv
    simp only [unpackAll, unpack, List.mem_cons] at hv
    rcases hv with rfl | rfl | hv
    · exact recon_bounds _ h1 h13
    · exact recon_bounds _ h1 h13
    · exact ih v hv

theorem decodeUpTo_enough (n : Nat) (bs : List Byte) (h : bs.length ≤ n) (m : Nat) (hm : bs.length ≤ m) :
    decodeUpTo n bs = decodeUpTo m bs := by
  induction n generalizing bs m with
  | zero =>
    have : bs = [] := List.eq_nil_of_length_eq_zero (by omega)
    subst this
    cases m <;> simp [decodeUpTo]
  | succ n ih =>
    rcases bs with _ | ⟨x, bs⟩
    · cases m <;> simp [decodeUpTo]
    · cases m with
      | zero => simp at hm
      | succ m =>
        simp only [decodeUpTo, Config.dataMax]
        rw [ih _ (by simp at *; omega) m (by simp at *; omega)]

theorem decodeStream_nil : decodeStream [] = ([], .exhausted) := rfl

/-- R190's own equation. -/
theorem decodeStream_cons (h : Byte) (rest : List Byte) :
    decodeStream (h :: rest) =
      if reservedShift (shiftOf h) then ([], .fault .reservedShift (faultInfo 0 h))
      else
        match firstOverflow (unpackAll (shiftOf h) (rest.take 8)) with
        | some j => ([], .fault .overflow (faultInfo j h))
        | none =>
          ((unpackAll (shiftOf h) (rest.take 8)).map toSample ++ (decodeStream (rest.drop 8)).1,
            (decodeStream (rest.drop 8)).2) := by
  rw [decodeStream, List.length_cons, decodeUpTo, decodeStream,
    decodeUpTo_enough rest.length (rest.drop 8) (by simp) (rest.drop 8).length (by simp)]
  all_goals rfl

/-- `PACKSEQ` then the values of its bytes: each nibble's value, and zero for the pad. -/
theorem unpackAll_packSeq (sh : Nat) (ns : List Nib) :
    unpackAll sh (packSeq ns) = ns.map (fun n => recon n sh) ++ (if ns.length % 2 = 1 then [0] else []) := by
  induction ns using packSeq.induct with
  | case1 => rfl
  | case2 a => simp [packSeq, unpackAll, unpack, pack, recon, sext4]
  | case3 a b rest ih => simp only [packSeq, unpackAll, unpack, pack, hiNib_joinNibs, loNib_joinNibs, ih, List.map_cons, List.cons_append,
      List.length_cons, show (rest.length + 1 + 1) % 2 = rest.length % 2 by omega]

/-! ### Refill and answer -/

/-- Everything the end of `REFILL` can do. -/
theorem closeBlock_cases (h : Byte) (vs : List Int) (s : State) :
    (vs = [] ∧ closeBlock h vs s = { s with decState := .exhausted }) ∨
    (vs ≠ [] ∧ ∃ j, firstOverflow vs = some j ∧
      closeBlock h vs s = raiseDecFault .overflow (faultInfo j h) s) ∨
    (vs ≠ [] ∧ firstOverflow vs = none ∧ closeBlock h vs s =
      { s with
        sb := storeFrom 0 vs s.sb, decCnt := Fin.ofNat 17 vs.length, decRd := 0, decState := .buffered }) := by
  cases vs with
  | nil => exact .inl ⟨rfl, rfl⟩
  | cons v vs =>
    right
    cases hf : firstOverflow (v :: vs) with
    | some j => left; exact ⟨by simp, j, rfl, by simp [closeBlock, hf]⟩
    | none => right; exact ⟨by simp, rfl, by simp [closeBlock, hf]⟩

theorem closeBlock_nil (h : Byte) (s : State) : closeBlock h [] s = { s with decState := .exhausted } := rfl

theorem closeBlock_overflow {h : Byte} {vs : List Int} {j : Nat} (s : State) (hf : firstOverflow vs = some j) :
    closeBlock h vs s = raiseDecFault .overflow (faultInfo j h) s := by
  obtain ⟨rfl, _⟩ | ⟨_, i, e, h2⟩ | ⟨_, e, _⟩ := closeBlock_cases h vs s
  · simp [firstOverflow] at hf
  · rw [hf] at e; cases e; exact h2
  · rw [hf] at e; cases e

theorem closeBlock_buffered {h : Byte} {vs : List Int} (s : State) (hne : vs ≠ []) (hf : firstOverflow vs = none) :
    closeBlock h vs s =
      { s with
        sb := storeFrom 0 vs s.sb, decCnt := Fin.ofNat 17 vs.length, decRd := 0, decState := .buffered } := by
  obtain ⟨rfl, _⟩ | ⟨_, i, e, h2⟩ | ⟨_, e, h2⟩ := closeBlock_cases h vs s
  · exact absurd rfl hne
  · rw [hf] at e; cases e
  · exact h2

/-- Everything `REFILL` can do, by the words waiting on `dec_in`. -/
theorem refillBlock_cases (s : State) :
    (answersEnd s.decIn = true ∧ refillBlock s = { s with decState := .exhausted }) ∨
    ∃ w ws h, s.decIn = w :: ws ∧ readT9 w = some h ∧
      ((reservedShift (shiftOf h) = true ∧
          refillBlock s = raiseDecFault .reservedShift (faultInfo 0 h) { s with decIn := ws }) ∨
        (reservedShift (shiftOf h) = false ∧
          refillBlock s = closeBlock h (unpackAll (shiftOf h) (takeBytes 8 ws).1)
            { s with decIn := (takeBytes 8 ws).2 })) := by
  obtain ⟨h1, e⟩ | ⟨w, ws, b, hw, _, hr, e⟩ := takeWord_cases s.decIn
  · left; exact ⟨h1, by simp [refillBlock, e]⟩
  · right
    refine ⟨w, ws, b, hw, hr, ?_⟩
    cases h : reservedShift (shiftOf b) with
    | true => left; exact ⟨rfl, by simp [refillBlock, e, h]⟩
    | false => right; exact ⟨rfl, by simp [refillBlock, e, h]⟩

/-- Everything the delivery of a sample can do. -/
theorem deliver_cases (s : State) :
    (s.decCnt.val ≤ s.decRd.val ∧ deliver s = .fault .unspecifiedEntry) ∨
    (s.decRd.val + 1 = s.decCnt.val ∧ deliver s =
      .next { s with
        decOut := s.decOut ++ [.sample s.sb[s.decRd]], decState := .empty, decRd := 0, decCnt := 0 }) ∨
    (s.decRd.val + 1 < s.decCnt.val ∧ deliver s =
      .next { s with decOut := s.decOut ++ [.sample s.sb[s.decRd]], decRd := s.decRd + 1 }) := by
  rw [deliver]
  split
  · split
    · right; left; exact ⟨by assumption, rfl⟩
    · right; right; exact ⟨by omega, rfl⟩
  · left; exact ⟨by omega, rfl⟩

theorem answerPull_exhausted {s : State} (h : s.decState = .exhausted) :
    answerPull s = .next { s with decOut := s.decOut ++ [.exhausted] } := by simp [answerPull, h, respond]

theorem answerPull_faulted {s : State} (h : s.decState = .faulted) :
    answerPull s = .next { s with decOut := s.decOut ++ [.fault s.decCause s.decInfo] } := by
  simp [answerPull, h, respond]

theorem answerPull_buffered {s : State} (h : s.decState = .buffered) : answerPull s = deliver s := by
  simp [answerPull, h]

theorem closeBlock_not_empty (h : Byte) (vs : List Int) (s : State) : (closeBlock h vs s).decState ≠ .empty := by
  obtain ⟨_, e⟩ | ⟨_, j, _, e⟩ | ⟨_, _, e⟩ := closeBlock_cases h vs s <;> simp [e]

theorem refillBlock_not_empty (s : State) : (refillBlock s).decState ≠ .empty := by
  obtain ⟨_, e⟩ | ⟨w, ws, h, _, _, ⟨_, e⟩ | ⟨_, e⟩⟩ := refillBlock_cases s
  · simp [e]
  · simp [e]
  · rw [e]; exact closeBlock_not_empty _ _ _

/-- A pull is the answer after the refill it needs. -/
theorem execDecPull_eq {s : State} (h : s.refill = .idle) :
    execDecPull s = answerPull (if s.decState = .empty then refillBlock s else s) := by
  rw [execDecPull, if_pos h]; split <;> rfl

theorem decRd_succ {s : State} (h : s.decRd.val + 1 < s.decCnt.val) : (s.decRd + 1).val = s.decRd.val + 1 := by
  have := s.decCnt.isLt
  rw [Fin.val_add]; simp; omega

/-- Everything an answer to a pull can do. -/
theorem answerPull_cases {s t : State} (h : answerPull s = .next t) :
    (s.decState = .exhausted ∧ t = { s with decOut := s.decOut ++ [.exhausted] }) ∨
    (s.decState = .faulted ∧ t = { s with decOut := s.decOut ++ [.fault s.decCause s.decInfo] }) ∨
    (s.decState = .buffered ∧ s.decRd.val + 1 = s.decCnt.val ∧
      t = { s with
        decOut := s.decOut ++ [.sample s.sb[s.decRd]], decState := .empty, decRd := 0, decCnt := 0 }) ∨
    (s.decState = .buffered ∧ s.decRd.val + 1 < s.decCnt.val ∧
      t = { s with decOut := s.decOut ++ [.sample s.sb[s.decRd]], decRd := s.decRd + 1 }) := by
  cases hd : s.decState with
  | empty => simp [answerPull, hd] at h
  | buffered =>
    rw [answerPull_buffered hd] at h
    obtain ⟨_, e⟩ | ⟨h1, e⟩ | ⟨h1, e⟩ := deliver_cases s <;> rw [e] at h <;> cases h
    · exact .inr (.inr (.inl ⟨rfl, h1, rfl⟩))
    · exact .inr (.inr (.inr ⟨rfl, h1, by rw [hd]⟩))
  | exhausted => rw [answerPull_exhausted hd] at h; cases h; exact .inl ⟨rfl, by rw [hd]⟩
  | faulted => rw [answerPull_faulted hd] at h; cases h; exact .inr (.inl ⟨rfl, by rw [hd]⟩)

/-- A pull answers wherever the buffer's window is not empty in `BUFFERED` and the state is not `EMPTY`. -/
theorem answerPull_total {s : State} (h : s.decState ≠ .empty) (hw : s.decState = .buffered → s.decRd.val < s.decCnt.val) :
    ∃ t r, answerPull s = .next t ∧ t.decOut = s.decOut ++ [r] ∧ t.decIn = s.decIn := by
  cases hd : s.decState with
  | empty => exact absurd hd h
  | buffered =>
    rw [answerPull_buffered hd]
    obtain ⟨h1, _⟩ | ⟨h1, e⟩ | ⟨h1, e⟩ := deliver_cases s
    · have := hw hd; omega
    · exact ⟨_, _, e, rfl, rfl⟩
    · exact ⟨_, _, e, rfl, rfl⟩
  | exhausted => exact ⟨_, _, answerPull_exhausted hd, rfl, rfl⟩
  | faulted => exact ⟨_, _, answerPull_faulted hd, rfl, rfl⟩

/-- What an answer keeps. -/
theorem answerPull_frame {s t : State} (h : answerPull s = .next t) :
    t = { s with decState := t.decState, decRd := t.decRd, decCnt := t.decCnt, decOut := t.decOut } ∧
      ∃ r, t.decOut = s.decOut ++ [r] := by
  obtain ⟨hd, rfl⟩ | ⟨hd, rfl⟩ | ⟨hd, hc, rfl⟩ | ⟨hd, hc, rfl⟩ := answerPull_cases h <;> exact ⟨rfl, _, rfl⟩

/-- What the end of `REFILL` leaves alone. -/
theorem closeBlock_frame (h : Byte) (vs : List Int) (s : State) :
    closeBlock h vs s =
      { s with
        sb := (closeBlock h vs s).sb, decCnt := (closeBlock h vs s).decCnt, decRd := (closeBlock h vs s).decRd,
        decState := (closeBlock h vs s).decState, decCause := (closeBlock h vs s).decCause,
        decInfo := (closeBlock h vs s).decInfo } := by
  obtain ⟨_, e⟩ | ⟨_, j, _, e⟩ | ⟨_, _, e⟩ := closeBlock_cases h vs s <;> rw [e] <;> rfl

/-- What `REFILL` leaves alone, and that it takes at most nine words from the front. -/
theorem refillBlock_frame (s : State) :
    (refillBlock s =
      { s with
        sb := (refillBlock s).sb, decCnt := (refillBlock s).decCnt, decRd := (refillBlock s).decRd,
        decState := (refillBlock s).decState, decCause := (refillBlock s).decCause,
        decInfo := (refillBlock s).decInfo, decIn := (refillBlock s).decIn }) ∧
    (refillBlock s).decIn <:+ s.decIn ∧ s.decIn.length ≤ (refillBlock s).decIn.length + 9 := by
  obtain ⟨_, e⟩ | ⟨w, ws, h, hw, _, ⟨_, e⟩ | ⟨_, e⟩⟩ := refillBlock_cases s
  · rw [e]; exact ⟨rfl, List.suffix_refl _, by simp⟩
  · rw [e]; exact ⟨rfl, by simp [hw], by simp [hw]⟩
  · have hs := takeBytes_suffix 8 ws
    rw [e, closeBlock_frame]
    refine ⟨rfl, ?_, ?_⟩
    · show (takeBytes 8 ws).2 <:+ s.decIn
      rw [hw]; exact hs.1.trans (List.suffix_cons ..)
    · show s.decIn.length ≤ (takeBytes 8 ws).2.length + 9
      rw [hw]; simp; omega

theorem refillBlock_refill (s : State) : (refillBlock s).refill = s.refill := by have := congrArg State.refill (refillBlock_frame s).1; exact this

theorem refillBlock_decOut (s : State) : (refillBlock s).decOut = s.decOut := by have := congrArg State.decOut (refillBlock_frame s).1; exact this

/-- What a pull leaves alone, its one response, and what it takes. -/
theorem decPull_frame {s t : State} (h : execDecPull s = .next t) :
    t = { s with
        sb := t.sb, decCnt := t.decCnt, decRd := t.decRd, decState := t.decState, decCause := t.decCause,
        decInfo := t.decInfo, decIn := t.decIn, decOut := t.decOut } ∧
    (∃ r, t.decOut = s.decOut ++ [r]) ∧ t.decIn <:+ s.decIn ∧ s.decIn.length ≤ t.decIn.length + 9 ∧
    (t.decIn ≠ s.decIn → s.decState = .empty) := by
  by_cases hr : s.refill = .idle
  · rw [execDecPull_eq hr] at h
    split at h
    · obtain ⟨e, r, er⟩ := answerPull_frame h
      obtain ⟨f1, f2, f3⟩ := refillBlock_frame s
      have e1 := congrArg State.decIn e
      have e2 := congrArg State.decOut f1
      refine ⟨?_, ⟨r, ?_⟩, ?_, ?_, fun _ => by assumption⟩
      · rw [e, f1]
      · rw [er, e2]
      · rw [e1]; exact f2
      · rw [e1]; exact f3
    · obtain ⟨e, r, er⟩ := answerPull_frame h
      refine ⟨?_, ⟨r, er⟩, ?_, ?_, ?_⟩
      · rw [e]
      · rw [e]
      · rw [e]; exact Nat.le_add_right _ _
      · rw [e]; exact fun hc => absurd rfl hc
  · simp [execDecPull, hr] at h

/-! ### Bytes by position -/

theorem headerTaken_reserved {h : Byte} {s : State} (hr : s.refill = .header) (h0 : reservedShift (shiftOf h) = true) :
    headerTaken h s = .next
      { s with
        refill := .idle, decCause := .reservedShift, decInfo := faultInfo 0 h, decState := .faulted, decRd := 0,
        decCnt := 0, decOut := s.decOut ++ [.fault .reservedShift (faultInfo 0 h)] } := by
  simp only [headerTaken, hr, h0, if_true]; rfl

theorem headerTaken_legal {h : Byte} {s : State} (hr : s.refill = .header) (h0 : reservedShift (shiftOf h) = false) :
    headerTaken h s = .next { s with refill := .data h [] } := by
  simp [headerTaken, hr, h0]

theorem dataTaken_eq {b h : Byte} {vs : List Int} {s : State} (hr : s.refill = .data h vs) :
    dataTaken b s =
      if 16 ≤ vs.length + 2 then
        answerPull (closeBlock h (vs ++ [(unpack b (shiftOf h)).1, (unpack b (shiftOf h)).2]) { s with refill := .idle })
      else .next { s with refill := .data h (vs ++ [(unpack b (shiftOf h)).1, (unpack b (shiftOf h)).2]) } := by
  simp only [dataTaken, hr, List.length_append]; rfl

theorem headerInstr_exec (b : Byte) (s : State) : exec (decodeHeader b) s = headerTaken b s := by
  have e := joinNibs_hi_lo b
  have hlt := (hiNib b).isLt
  have hk : ∀ k : Nat, (hiNib b).toNat = k → joinNibs (BitVec.ofNat 4 k) (loNib b) = b := by
    intro k hk; rw [← hk, BitVec.ofNat_toNat]; simp
  have hc : (hiNib b).toNat = 0 ∨ (hiNib b).toNat = 1 ∨ (hiNib b).toNat = 2 ∨ (hiNib b).toNat = 3 ∨ (hiNib b).toNat = 4 ∨
    (hiNib b).toNat = 5 ∨ (hiNib b).toNat = 6 ∨ (hiNib b).toNat = 7 ∨ (hiNib b).toNat = 8 ∨ (hiNib b).toNat = 9 ∨
    (hiNib b).toNat = 10 ∨ (hiNib b).toNat = 11 ∨ (hiNib b).toNat = 12 ∨ (hiNib b).toNat = 13 ∨ (hiNib b).toNat = 14 ∨
    (hiNib b).toNat = 15 := by omega
  rcases hc with hh | hh | hh | hh | hh | hh | hh | hh | hh | hh | hh | hh | hh | hh | hh | hh <;>
  · have := hk _ hh
    simp only [decodeHeader, hh]
    show headerTaken _ s = _
    rw [this]

theorem dataInstr_exec (b : Byte) (s : State) : exec (decodeData b) s = dataTaken b s := by
  show dataTaken (joinNibs (hiNib b) (loNib b)) s = _
  rw [joinNibs_hi_lo]

/-- What a header byte leaves alone. -/
theorem headerTaken_frame {b : Byte} {s t : State} (h : headerTaken b s = .next t) :
    s.refill = .header ∧ t = { s with
        decCnt := t.decCnt, decRd := t.decRd, decState := t.decState, decCause := t.decCause,
        decInfo := t.decInfo, refill := t.refill, decOut := t.decOut } ∧ s.decOut <+: t.decOut := by
  cases hr : s.refill with
  | idle => simp [headerTaken, hr] at h
  | data => simp [headerTaken, hr] at h
  | header =>
    refine ⟨rfl, ?_⟩
    cases hs : reservedShift (shiftOf b) with
    | true => rw [headerTaken_reserved hr hs] at h; cases h; exact ⟨rfl, by simp⟩
    | false => rw [headerTaken_legal hr hs] at h; cases h; exact ⟨rfl, by simp⟩

/-- What a data byte leaves alone. -/
theorem dataTaken_frame {b : Byte} {s t : State} (h : dataTaken b s = .next t) :
    s.refill ≠ .idle ∧ t = { s with
        sb := t.sb, decCnt := t.decCnt, decRd := t.decRd, decState := t.decState, decCause := t.decCause,
        decInfo := t.decInfo, refill := t.refill, decOut := t.decOut } ∧ s.decOut <+: t.decOut := by
  cases hr : s.refill with
  | idle => simp [dataTaken, hr] at h
  | header => simp [dataTaken, hr] at h
  | data hb vs =>
    refine ⟨by simp, ?_⟩
    rw [dataTaken_eq hr] at h
    split at h
    · obtain ⟨e, r, er⟩ := answerPull_frame h
      rw [closeBlock_frame] at e er
      refine ⟨?_, ?_⟩
      · rw [e]
      · rw [er]; exact List.prefix_append ..
    · cases h; exact ⟨rfl, by simp⟩

end Sys2Proof.Machine
end

