-- ==== Sys2Proof/Laws/PerInstr.lean ====
section
/-! SUPPORT. The family `FormatWidth`, one lemma per operation: the word that selects the operation fits its format
(spec/30_encoding.md R82, R83, R89, R91, R92). -/

/-- The word that selects `i`, if bits select it, is one of its format's. -/
def Sys2Proof.Laws.FormatWidth.Statement (i : Sys2Proof.Instr) : Prop :=
  ∀ (f : Sys2Proof.Format) (w : Nat), Sys2Proof.encode i = some (f, w) → w < 2 ^ Sys2Proof.formatWidth f

namespace Sys2Proof.Laws.FormatWidth
open Sys2Proof

theorem of_none {i : Instr} (h : encode i = none) : Statement i := fun f w e => by simp [h] at e

theorem of_word {i : Instr} {g : Format} {n : Nat} (h : encode i = some (g, n)) (hn : n < 2 ^ formatWidth g) :
    Statement i := by
  intro f w e
  rw [h] at e
  cases e
  exact hn

theorem header_lt {k : Nat} (hk : k < 16) (low : Nib) : k * 16 + low.toNat < 2 ^ formatWidth .header := by
  have := low.isLt
  simp only [formatWidth]
  omega

theorem mag16 (s : Sample) : Statement (.mag16 s) := of_none rfl

theorem needed (s : Sample) : Statement (.needed s) := of_none rfl

theorem select (f : List Sample) : Statement (.select f) := of_none rfl

theorem rhaz (s : Sample) (k : Nat) : Statement (.rhaz s k) := of_none rfl

theorem quant (s : Sample) (sh : Nat) : Statement (.quant s sh) := of_none rfl

theorem nib4 (q : Int) : Statement (.nib4 q) := of_none rfl

theorem hdr (sh : Nat) : Statement (.hdr sh) := of_none rfl

theorem pack (a b : Nib) : Statement (.pack a b) := of_none rfl

theorem packSeq (ns : List Nib) : Statement (.packSeq ns) := of_none rfl

theorem encodeFrame (f : List Sample) : Statement (.encodeFrame f) := of_none rfl

theorem encode (xs : List Sample) : Statement (.encode xs) := of_none rfl

theorem emit (cnt : Nat) : Statement (.emit cnt) := of_none rfl

theorem encPush (s : Sample) : Statement (.encPush s) := by
  have := s.isLt
  exact of_word rfl (by simp only [formatWidth]; omega)

theorem encEnd (ignored : BitVec 16) : Statement (.encEnd ignored) := by
  have := ignored.isLt
  exact of_word rfl (by simp only [formatWidth]; omega)

theorem shiftOf (h : Byte) : Statement (.shiftOf h) := of_none rfl

theorem sext4 (n : Nib) : Statement (.sext4 n) := of_none rfl

theorem recon (n : Nib) (sh : Nat) : Statement (.recon n sh) := of_none rfl

theorem unpack (b : Byte) (sh : Nat) : Statement (.unpack b sh) := of_none rfl

theorem decode (bs : List Byte) : Statement (.decode bs) := of_none rfl

theorem refill : Statement (.refill) := of_none rfl

theorem decPull : Statement (.decPull) := of_word rfl (by decide)

theorem hdrS0 (low : Nib) : Statement (.hdrS0 low) := of_word rfl (header_lt (k := 0) (by decide) low)

theorem hdrS1 (low : Nib) : Statement (.hdrS1 low) := of_word rfl (header_lt (k := 1) (by decide) low)

theorem hdrS2 (low : Nib) : Statement (.hdrS2 low) := of_word rfl (header_lt (k := 2) (by decide) low)

theorem hdrS3 (low : Nib) : Statement (.hdrS3 low) := of_word rfl (header_lt (k := 3) (by decide) low)

theorem hdrS4 (low : Nib) : Statement (.hdrS4 low) := of_word rfl (header_lt (k := 4) (by decide) low)

theorem hdrS5 (low : Nib) : Statement (.hdrS5 low) := of_word rfl (header_lt (k := 5) (by decide) low)

theorem hdrS6 (low : Nib) : Statement (.hdrS6 low) := of_word rfl (header_lt (k := 6) (by decide) low)

theorem hdrS7 (low : Nib) : Statement (.hdrS7 low) := of_word rfl (header_lt (k := 7) (by decide) low)

theorem hdrS8 (low : Nib) : Statement (.hdrS8 low) := of_word rfl (header_lt (k := 8) (by decide) low)

theorem hdrS9 (low : Nib) : Statement (.hdrS9 low) := of_word rfl (header_lt (k := 9) (by decide) low)

theorem hdrS10 (low : Nib) : Statement (.hdrS10 low) := of_word rfl (header_lt (k := 10) (by decide) low)

theorem hdrS11 (low : Nib) : Statement (.hdrS11 low) := of_word rfl (header_lt (k := 11) (by decide) low)

theorem hdrS12 (low : Nib) : Statement (.hdrS12 low) := of_word rfl (header_lt (k := 12) (by decide) low)

theorem hdrS13 (low : Nib) : Statement (.hdrS13 low) := of_word rfl (header_lt (k := 13) (by decide) low)

theorem hdrS14 (low : Nib) : Statement (.hdrS14 low) := of_word rfl (header_lt (k := 14) (by decide) low)

theorem hdrS15 (low : Nib) : Statement (.hdrS15 low) := of_word rfl (header_lt (k := 15) (by decide) low)

theorem data (hi lo : Nib) : Statement (.data hi lo) := by
  have := hi.isLt
  have := lo.isLt
  exact of_word rfl (by simp only [formatWidth]; omega)

end Sys2Proof.Laws.FormatWidth
end

