-- ==== Sys2Proof/Laws/Step.lean ====
section
/-! SUPPORT. What one `Take` and one step can do, said once. -/

namespace Sys2Proof.Machine

/-- Everything one `Take` of the pull in progress can do, by its position and what it answers. -/
theorem stepTake_cases (s : State) :
    (s.refill = .idle ∧ answersEnd s.decIn = true ∧ stepTake s = .next s) ∨
    (s.refill = .idle ∧ answersEnd s.decIn = false ∧ stepTake s = .refused .bytePosition) ∨
    (s.refill = .header ∧ answersEnd s.decIn = true ∧
      stepTake s = answerPull { s with refill := .idle, decState := .exhausted }) ∨
    (∃ h vs, s.refill = .data h vs ∧ answersEnd s.decIn = true ∧
      stepTake s = answerPull (closeBlock h vs { s with refill := .idle })) ∨
    (∃ w ws b, s.decIn = w :: ws ∧ readT9 w = some b ∧ s.refill = .header ∧
      stepTake s = headerTaken b { s with decIn := ws }) ∨
    (∃ w ws b h vs, s.decIn = w :: ws ∧ readT9 w = some b ∧ s.refill = .data h vs ∧
      stepTake s = dataTaken b { s with decIn := ws }) := by
  obtain ⟨h1, e⟩ | ⟨w, ws, b, hw, hE, hr, e⟩ := takeWord_cases s.decIn
  · cases hr : s.refill with
    | idle => left; exact ⟨rfl, h1, by simp [stepTake, e, endTaken, hr]; rw [← hr]⟩
    | header => right; right; left; exact ⟨rfl, h1, by simp [stepTake, e, endTaken, hr]⟩
    | data h vs =>
      right; right; right; left; exact ⟨h, vs, rfl, h1, by simp [stepTake, e, endTaken, hr]⟩
  · cases hr' : s.refill with
    | idle =>
      right; left
      refine ⟨rfl, hE, ?_⟩
      simp [stepTake, e, hr', byteAtPosition, headerInstr_exec, headerTaken]
    | header =>
      right; right; right; right; left
      exact ⟨w, ws, b, hw, hr, rfl, by simp [stepTake, e, hr', byteAtPosition, headerInstr_exec]⟩
    | data h vs =>
      right; right; right; right; right
      exact ⟨w, ws, b, h, vs, hw, hr, rfl, by simp [stepTake, e, hr', byteAtPosition, dataInstr_exec]⟩

/-- Everything a step can do. -/
theorem step_cases {s t : State} (h : step s = .next t) :
    (∃ ts, t = { s with turns := ts } ∧ (s.turns.head? ≠ some .resetDec) ∧ s.turns.head? ≠ some .resetEnc) ∨
    (∃ ts w ws, s.turns = .enc :: ts ∧ s.encIn = w :: ws ∧ exec (decodeT17 w) { s with turns := ts, encIn := ws } = .next t) ∨
    (∃ ts, s.turns = .resetEnc :: ts ∧ t = resetEnc { s with turns := ts }) ∨
    (∃ ts, s.turns = .resetDec :: ts ∧ s.refill = .idle ∧ t = resetDec { s with turns := ts }) ∨
    (∃ ts, s.refill ≠ .idle ∧ stepTake { s with turns := ts } = .next t) ∨
    (∃ ts, s.turns = .pull :: ts ∧ s.refill = .idle ∧ execDecPull { s with turns := ts } = .next t) ∨
    (∃ ts, s.turns = .pullByToken :: ts ∧ s.refill = .idle ∧ s.decState ≠ .empty ∧ answerPull { s with turns := ts } = .next t) ∨
    (∃ ts, s.turns = .pullByToken :: ts ∧ s.refill = .idle ∧ s.decState = .empty ∧ t = { s with turns := ts, refill := .header }) := by
  rw [step, runTurn] at h
  split at h
  · split at h
    · cases h; left; exact ⟨s.turns, rfl, by simp_all, by simp_all⟩
    · right; right; right; right; left; exact ⟨s.turns, by assumption, h⟩
  · rename_i ts hts
    rw [stepEnc] at h; split at h
    · cases h; left; exact ⟨ts, rfl, by simp_all, by simp_all⟩
    · rename_i w ws hin
      right; left; exact ⟨ts, w, ws, hts, hin, h⟩
  · rename_i ts hts
    cases h; right; right; left; exact ⟨ts, hts, rfl⟩
  · rename_i ts hts
    split at h
    · cases h; left; exact ⟨ts, rfl, by simp_all, by simp_all⟩
    · right; right; right; right; left; exact ⟨ts, by assumption, h⟩
  · rename_i ts hts
    split at h
    · right; right; right; right; right; left; exact ⟨ts, hts, by assumption, h⟩
    · right; right; right; right; left; exact ⟨s.turns, by assumption, h⟩
  · rename_i ts hts
    split at h
    · rename_i hr
      rw [stepBeginPull] at h; split at h
      · cases h; right; right; right; right; right; right; right; exact ⟨ts, hts, hr, by assumption, rfl⟩
      · rename_i hd
        right; right; right; right; right; right; left; 
        change execDecPull _ = _ at h
        rw [execDecPull_eq (by exact hr), if_neg (by exact hd)] at h
        exact ⟨ts, hts, hr, hd, h⟩
    · right; right; right; right; left; exact ⟨s.turns, by assumption, h⟩
  · rename_i ts hts
    split at h
    · cases h; right; right; right; left; exact ⟨ts, hts, by assumption, rfl⟩
    · cases h

/-- What one `Take` of the pull in progress leaves alone. -/
theorem stepTake_frame {s t : State} (h : stepTake s = .next t) :
    t = { s with
        sb := t.sb, decCnt := t.decCnt, decRd := t.decRd, decState := t.decState, decCause := t.decCause,
        decInfo := t.decInfo, refill := t.refill, decOut := t.decOut, decIn := t.decIn } ∧ s.decOut <+: t.decOut ∧
      t.decIn <:+ s.decIn := by
  obtain ⟨_, _, e⟩ | ⟨_, _, e⟩ | ⟨hr, _, e⟩ | ⟨hb, vs, hr, _, e⟩ | ⟨w, ws, b, hw, _, hr, e⟩ | ⟨w, ws, b, hb, vs, hw, _, hr, e⟩ := stepTake_cases s <;> rw [e] at h
  · cases h; exact ⟨rfl, by simp, by simp⟩
  · cases h
  · obtain ⟨e, r, er⟩ := answerPull_frame h
    refine ⟨?_, ?_, ?_⟩
    · rw [e]
    · rw [er]; exact List.prefix_append ..
    · rw [e]
  · obtain ⟨e, r, er⟩ := answerPull_frame h
    rw [closeBlock_frame] at e er
    refine ⟨?_, ?_, ?_⟩
    · rw [e]
    · rw [er]; exact List.prefix_append ..
    · rw [e]
  · obtain ⟨_, e, ep⟩ := headerTaken_frame h
    refine ⟨?_, ep, ?_⟩
    · rw [e]
    · rw [e, hw]; exact List.suffix_cons ..
  · obtain ⟨_, e, ep⟩ := dataTaken_frame h
    refine ⟨?_, ep, ?_⟩
    · rw [e]
    · rw [e, hw]; exact List.suffix_cons ..

/-- A T17 word is one of the two tokens. -/
theorem decodeT17_cases (w : BitVec 17) : (∃ x, decodeT17 w = .encPush x) ∨ ∃ i, decodeT17 w = .encEnd i := by
  rw [decodeT17]; split
  · exact .inr ⟨_, rfl⟩
  · exact .inl ⟨_, rfl⟩

/-- What the token offered to `ENC` leaves alone. -/
theorem encToken_frame {w : BitVec 17} {s t : State} (h : exec (decodeT17 w) s = .next t) :
    s.encDone = false ∧ t = { s with fb := t.fb, encN := t.encN, encDone := t.encDone, encOut := t.encOut } ∧
      s.encOut <+: t.encOut := by
  obtain ⟨x, e⟩ | ⟨x, e⟩ := decodeT17_cases w <;> rw [e] at h
  · obtain ⟨h1, h2, h3⟩ := encPush_frame (x := x) h
    exact ⟨h1, by rw [h2], h3⟩
  · obtain ⟨h1, h2, h3⟩ := encEnd_frame (w := x) h
    exact ⟨h1, by rw [h2], h3⟩

end Sys2Proof.Machine
end

