-- ==== Sys2Proof/Tests/Slice0.lean ====
section
/-! SUPPORT. Tests. Expected results are those of spec/95_test_vectors.md (the vector's id stands in each comment) or of
the corner cases and examples of the rule named. The witnesses at the end meet the hypotheses of the statements. -/

open Sys2Proof Sys2Proof.Machine

/-! ### Well-formedness: one ill-formed operation for each check -/

theorem test_wellFormed_select_refuses_empty : wellFormed (.select []) = false := by decide
theorem test_wellFormed_select_refuses_17 : wellFormed (.select (List.replicate 17 0#16)) = false := by decide
theorem test_wellFormed_rhaz_refuses_14 : wellFormed (.rhaz 0#16 14) = false := by decide
theorem test_wellFormed_quant_refuses_0 : wellFormed (.quant 0#16 0) = false := by decide
theorem test_wellFormed_quant_refuses_15 : wellFormed (.quant 0#16 15) = false := by decide
theorem test_wellFormed_nib4_refuses_8 : wellFormed (.nib4 8) = false := by decide
theorem test_wellFormed_nib4_refuses_neg9 : wellFormed (.nib4 (-9)) = false := by decide
theorem test_wellFormed_hdr_refuses_0_and_15 : wellFormed (.hdr 0) = false ∧ wellFormed (.hdr 15) = false := by decide
theorem test_wellFormed_packSeq_refuses_empty : wellFormed (.packSeq []) = false := by decide
theorem test_wellFormed_encodeFrame_refuses_empty : wellFormed (.encodeFrame []) = false := by decide
theorem test_wellFormed_emit_refuses_0_and_17 : wellFormed (.emit 0) = false ∧ wellFormed (.emit 17) = false := by decide
theorem test_wellFormed_recon_refuses_0_and_15 :
    wellFormed (.recon 0#4 0) = false ∧ wellFormed (.recon 0#4 15) = false := by decide
theorem test_wellFormed_unpack_refuses_0_and_15 :
    wellFormed (.unpack 0#8 0) = false ∧ wellFormed (.unpack 0#8 15) = false := by decide
theorem test_wellFormed_accepts_the_bounds :
    wellFormed (.rhaz 0#16 13) = true ∧ wellFormed (.quant 0#16 14) = true ∧ wellFormed (.nib4 (-8)) = true ∧
    wellFormed (.select [0#16]) = true ∧ wellFormed (.emit 16) = true := by decide

/-! ### Decoding: each operation that bits select, by a word written out from its format (R82, R83, R89, R91, R92) -/

theorem test_decode_encPush : decodeWord .t17 0b01111111011010100 = .instr (.encPush (-300#16)) := by decide
theorem test_decode_encPush_top : decodeWord .t17 0b01000000000000000 = .instr (.encPush 0x8000#16) := by decide
theorem test_decode_encEnd : decodeWord .t17 0b10000000000000000 = .instr (.encEnd 0#16) := by decide
theorem test_decode_encEnd_ignored : decodeWord .t17 0b10000000000000011 = .instr (.encEnd 3#16) := by decide
theorem test_decode_t17_too_wide : decodeWord .t17 0b100000000000000000 = .reject (.tooWide .t17) := by decide
theorem test_decode_decPull : decodeWord .q0 0 = .instr .decPull := by decide
theorem test_decode_hdrS0 : decodeWord .header 0b00001111 = .instr (.hdrS0 0xF#4) := by decide
theorem test_decode_hdrS1 : decodeWord .header 0b00010000 = .instr (.hdrS1 0#4) := by decide
theorem test_decode_hdrS2 : decodeWord .header 0b00100001 = .instr (.hdrS2 1#4) := by decide
theorem test_decode_hdrS3 : decodeWord .header 0b00110000 = .instr (.hdrS3 0#4) := by decide
theorem test_decode_hdrS4 : decodeWord .header 0b01001000 = .instr (.hdrS4 8#4) := by decide
theorem test_decode_hdrS5 : decodeWord .header 0b01011010 = .instr (.hdrS5 0xA#4) := by decide
theorem test_decode_hdrS6 : decodeWord .header 0b01100000 = .instr (.hdrS6 0#4) := by decide
theorem test_decode_hdrS7 : decodeWord .header 0b01110010 = .instr (.hdrS7 2#4) := by decide
theorem test_decode_hdrS8 : decodeWord .header 0b10000000 = .instr (.hdrS8 0#4) := by decide
theorem test_decode_hdrS9 : decodeWord .header 0b10010100 = .instr (.hdrS9 4#4) := by decide
theorem test_decode_hdrS10 : decodeWord .header 0b10100000 = .instr (.hdrS10 0#4) := by decide
theorem test_decode_hdrS11 : decodeWord .header 0b10110011 = .instr (.hdrS11 3#4) := by decide
theorem test_decode_hdrS12 : decodeWord .header 0b11000000 = .instr (.hdrS12 0#4) := by decide
theorem test_decode_hdrS13 : decodeWord .header 0b11010111 = .instr (.hdrS13 7#4) := by decide
theorem test_decode_hdrS14 : decodeWord .header 0b11100000 = .instr (.hdrS14 0#4) := by decide
theorem test_decode_hdrS15 : decodeWord .header 0b11110000 = .instr (.hdrS15 0#4) := by decide
theorem test_decode_data : decodeWord .data 0b00011110 = .instr (.data 1#4 0xE#4) := by decide
theorem test_decode_data_high_half : decodeWord .data 0b11110000 = .instr (.data 0xF#4 0#4) := by decide
/-- The T18 words of section 2.8. -/
theorem test_t18_words :
    t18Word (.fault .reservedShift 0#12) = 0x24000#18 ∧ t18Word (.fault .overflow 0x1E0#12) = 0x281E0#18 ∧
    t18Word (.sample (-2#16)) = 0x0FFFE#18 ∧ t18Word .exhausted = 0x10000#18 := by decide
/-- The T9 words of PRG1. -/
theorem test_t9_words : t9Word (.byte 0x50#8) = 0x050#9 ∧ t9Word .eos = 0x100#9 := by decide

/-! ### Primitives and functions -/

/-- What `i` returns from the reset state. -/
def resultOf (i : Instr) : Option Value := (nextOf (exec i State.reset)).map State.result

/-- R110's example and NE44. -/
theorem test_mag16_complements : resultOf (.mag16 (-100#16)) = some (.u16 0x0063#16) := by decide
theorem test_mag16_most_negative : resultOf (.mag16 0x8000#16) = some (.u16 0x7FFF#16) := by decide
/-- NE5, NE6, NE41, NE42. -/
theorem test_needed_asymmetry : resultOf (.needed (-8#16)) = some (.num 1) ∧ resultOf (.needed 8#16) = some (.num 2) := by
  decide
theorem test_needed_top :
    resultOf (.needed (-16384#16)) = some (.num 12) ∧ resultOf (.needed (-16385#16)) = some (.num 13) := by decide
/-- SE6, SE7: the tie is decided by the count reached first. -/
theorem test_select_tie : resultOf (.select [0#16, 8#16, 8#16, 0#16]) = some (.num 2) := by decide
theorem test_select_tie_reversed : resultOf (.select [8#16, 0#16, 0#16, 8#16]) = some (.num 1) := by decide
/-- R130's examples. -/
theorem test_rhaz_tie_away_from_zero : resultOf (.rhaz 5#16 1) = some (.num 3) := by decide
theorem test_rhaz_negative_tie : resultOf (.rhaz (-5#16) 1) = some (.num (-3)) := by decide
/-- QU42, QU45. -/
theorem test_quant_saturates : resultOf (.quant 0x7FFF#16 13) = some (.num 7) := by decide
theorem test_quant_most_negative : resultOf (.quant 0x8000#16 13) = some (.num (-8)) := by decide
/-- R133's example. -/
theorem test_nib4_negative : resultOf (.nib4 (-6)) = some (.nib 0xA#4) := by decide
/-- PK5. -/
theorem test_hdr_13 : resultOf (.hdr 13) = some (.byte 0xD0#8) := by decide
/-- PK7, PK10: the first nibble is the high half. -/
theorem test_pack_order : resultOf (.pack 1#4 2#4) = some (.byte 0x12#8) := by decide
theorem test_pack_low_half : resultOf (.pack 0#4 7#4) = some (.byte 0x07#8) := by decide
/-- PK14, PK16. -/
theorem test_packSeq_pads : resultOf (.packSeq [1#4, 2#4, 3#4, 4#4, 5#4]) = some (.bytes [0x12#8, 0x34#8, 0x50#8]) := by
  decide
theorem test_packSeq_even : resultOf (.packSeq [7#4, 8#4]) = some (.bytes [0x78#8]) := by decide
/-- FR5, FR16. -/
theorem test_encodeFrame_tie :
    resultOf (.encodeFrame [0#16, 8#16, 8#16, 0#16]) = some (.bytes [0x20#8, 0x04#8, 0x40#8]) := by decide
theorem test_encodeFrame_signs : resultOf (.encodeFrame [300#16, -300#16]) = some (.bytes [0x70#8, 0x5B#8]) := by decide
/-- FR3, and FR4 followed by FR20: a full frame and a short one. -/
theorem test_encode_short :
    resultOf (.encode [1#16, 2#16, 3#16, 4#16, 5#16]) = some (.bytes [0x10#8, 0x12#8, 0x34#8, 0x50#8]) := by decide
theorem test_encode_two_frames :
    resultOf (.encode (List.replicate 16 31#16 ++ [7#16])) =
      some (.bytes ([0x30#8] ++ List.replicate 8 0x77#8 ++ [0x10#8, 0x70#8])) := by decide
/-- RC4, RC2. -/
theorem test_shiftOf_13 : resultOf (.shiftOf 0xD7#8) = some (.num 13) := by decide
theorem test_shiftOf_ignores_low : resultOf (.shiftOf 0x1F#8) = some (.num 1) := by decide
/-- RC13, RC10. -/
theorem test_sext4_negative : resultOf (.sext4 0xA#4) = some (.num (-6)) := by decide
theorem test_sext4_seven : resultOf (.sext4 7#4) = some (.num 7) := by decide
/-- RC19, RC30. -/
theorem test_recon_negative : resultOf (.recon 0xA#4 5) = some (.num (-96)) := by decide
theorem test_recon_beyond_i16 : resultOf (.recon 8#4 14) = some (.num (-65536)) := by decide
/-- RC33. -/
theorem test_unpack_order : resultOf (.unpack 0x7A#8 5) = some (.pair 112 (-96)) := by decide
/-- FX4 and WS9. -/
theorem test_decode_overflow :
    resultOf (.decode [0xE0#8, 0x34#8, 0x40#8]) = some (.stream [] (.fault .overflow 0x1E0#12)) := by decide
theorem test_decode_by_position :
    resultOf (.decode [0x10#8, 0x12#8, 0x34#8, 0x50#8, 0x20#8, 0x11#8]) =
      some (.stream [1#16, 2#16, 3#16, 4#16, 5#16, 0#16, 2#16, 0#16, 1#16, 1#16] .exhausted) := by decide

/-! ### The encoder -/

/-- An encoder that has collected `f`. -/
def encWith (f : Vector Sample 16) (n : Fin 16) : State := { State.reset with fb := f, encN := n }

/-- The samples 1, 2, 3, 4, 5 and stale entries. -/
def fiveSamples : Vector Sample 16 :=
  #v[1#16, 2#16, 3#16, 4#16, 5#16, 9#16, 9#16, 9#16, 9#16, 9#16, 9#16, 9#16, 9#16, 9#16, 9#16, 9#16]

/-- R158's example: `EMIT(5)` puts `10 12 34 50`. -/
theorem test_emit_five :
    (nextOf (exec (.emit 5) (encWith fiveSamples 5))).map State.encOut =
      some [.byte 0x10#8, .byte 0x12#8, .byte 0x34#8, .byte 0x50#8] := by decide
theorem test_emit_other_count_refused : refusalOf (exec (.emit 4) (encWith fiveSamples 5)) = some .emitCount := by decide
/-- R159's example: the sixteenth zero puts `10` and eight zeros and leaves `enc_n = 0`. -/
theorem test_encPush_sixteenth :
    (nextOf (exec (.encPush 0#16) (encWith (Vector.replicate 16 0#16) 15))).map (fun t => (t.encOut, t.encN)) =
      some ((0x10#8 :: List.replicate 8 0#8).map .byte, 0) := by decide
/-- PRG1, step 5. -/
theorem test_encPush_stores :
    (nextOf (exec (.encPush 5#16) (encWith fiveSamples 4))).map (fun t => (t.fb[4], t.encN, t.encOut)) =
      some (5#16, 5, []) := by decide
/-- PRG1, step 6. -/
theorem test_encEnd_flushes :
    (nextOf (exec (.encEnd 0#16) (encWith fiveSamples 5))).map (fun t => (t.encOut, t.encN, t.encDone)) =
      some ([.byte 0x10#8, .byte 0x12#8, .byte 0x34#8, .byte 0x50#8, .eos], 0, true) := by decide
/-- R162. -/
theorem test_encEnd_empty : (nextOf (exec (.encEnd 0#16) State.reset)).map State.encOut = some [.eos] := by decide

/-! ### The decoder -/

/-- A decoder just reset with `bs` waiting and then `End`. -/
def decOn (bs : List Byte) : State := { State.reset with decIn := wordsOf bs ++ [0x100#9] }

/-- A decoder with a pull in progress. -/
def decIn (r : Refill) : State := { State.reset with refill := r }

/-- R187's example: `50 66 7A` then `End`. -/
theorem test_refill_truncated :
    (nextOf (exec .refill (decOn [0x50#8, 0x66#8, 0x7A#8]))).map
      (fun t => (t.sb.toList.take 4, t.decCnt, t.decRd, t.decState, t.decIn)) =
      some ([96#16, 96#16, 112#16, -96#16], 4, 0, .buffered, [0x100#9]) := by decide
/-- FX3: the low nibble plays no part, and no data byte is taken. -/
theorem test_refill_reserved :
    (nextOf (exec .refill (decOn [0x0F#8, 0x11#8]))).map (fun t => (t.decCause, t.decInfo, t.decState, t.decIn)) =
      some (.reservedShift, 0x00F#12, .faulted, [0x011#9, 0x100#9]) := by decide
/-- PRG2, step 1. -/
theorem test_decPull_refills_and_delivers :
    (nextOf (exec .decPull (decOn [0x10#8, 0x12#8, 0x34#8, 0x50#8]))).map
      (fun t => (t.decOut, t.decState, t.decRd, t.decCnt)) = some ([.sample 1#16], .buffered, 1, 6) := by decide
/-- FX6: all the block's bytes are taken, the least index is 5. -/
theorem test_decPull_overflow :
    (nextOf (exec .decPull (decOn [0xE0#8, 0x00#8, 0x00#8, 0x07#8]))).map (fun t => (t.decOut, t.decState, t.decIn)) =
      some ([.fault .overflow 0x5E0#12], .faulted, [0x100#9]) := by decide

/-! ### Bytes by position (R88) -/

/-- The refill that `i` leaves when a header is due, and the responses given. -/
def afterHeader (i : Instr) : Option (Refill × List Response) :=
  (nextOf (exec i (decIn .header))).map fun t => (t.refill, t.decOut)

theorem test_hdrS0_faults : afterHeader (.hdrS0 0xF#4) = some (.idle, [.fault .reservedShift 0x00F#12]) := by decide
theorem test_hdrS1_opens : afterHeader (.hdrS1 0#4) = some (.data 0x10#8 [], []) := by decide
theorem test_hdrS2_opens : afterHeader (.hdrS2 1#4) = some (.data 0x21#8 [], []) := by decide
theorem test_hdrS3_opens : afterHeader (.hdrS3 0#4) = some (.data 0x30#8 [], []) := by decide
theorem test_hdrS4_opens : afterHeader (.hdrS4 0#4) = some (.data 0x40#8 [], []) := by decide
theorem test_hdrS5_opens : afterHeader (.hdrS5 0xA#4) = some (.data 0x5A#8 [], []) := by decide
theorem test_hdrS6_opens : afterHeader (.hdrS6 0#4) = some (.data 0x60#8 [], []) := by decide
theorem test_hdrS7_opens : afterHeader (.hdrS7 0#4) = some (.data 0x70#8 [], []) := by decide
theorem test_hdrS8_opens : afterHeader (.hdrS8 0#4) = some (.data 0x80#8 [], []) := by decide
theorem test_hdrS9_opens : afterHeader (.hdrS9 0#4) = some (.data 0x90#8 [], []) := by decide
theorem test_hdrS10_opens : afterHeader (.hdrS10 0#4) = some (.data 0xA0#8 [], []) := by decide
theorem test_hdrS11_opens : afterHeader (.hdrS11 0#4) = some (.data 0xB0#8 [], []) := by decide
theorem test_hdrS12_opens : afterHeader (.hdrS12 0#4) = some (.data 0xC0#8 [], []) := by decide
theorem test_hdrS13_opens : afterHeader (.hdrS13 0#4) = some (.data 0xD0#8 [], []) := by decide
theorem test_hdrS14_opens : afterHeader (.hdrS14 0#4) = some (.data 0xE0#8 [], []) := by decide
theorem test_hdrS15_faults : afterHeader (.hdrS15 0#4) = some (.idle, [.fault .reservedShift 0x0F0#12]) := by decide
/-- RC33: the high half is the earlier sample. -/
theorem test_data_joins :
    (nextOf (exec (.data 7#4 0xA#4) (decIn (.data 0x50#8 [96, 96])))).map State.refill =
      some (.data 0x50#8 [96, 96, 112, -96]) := by decide
/-- FX8's first block at its last byte: 3 * 8192 fits, and the pull delivers the first sample. -/
theorem test_data_eighth_answers :
    (nextOf (exec (.data 3#4 3#4) (decIn (.data 0xE0#8 (List.replicate 14 24576))))).map
      (fun t => (t.refill, t.decState, t.decCnt, t.decOut)) = some (.idle, .buffered, 16, [.sample 24576#16]) := by decide

/-! ### Steps -/

/-- PRG5, step 8: a token after `End` is never taken. -/
theorem test_step_token_after_end_refused :
    refusalOf (step { State.reset with encDone := true, encIn := [5#17], turns := [.enc] }) = some .encoderFinished := by
  decide
/-- R252: no reset inside a pull. -/
theorem test_step_reset_inside_pull_refused :
    refusalOf (step { State.reset with refill := .header, turns := [.resetDec] }) = some .resetInsideOperation := by decide
/-- PRG5, step 4: `RESET ENC` leaves `FB`. -/
theorem test_step_reset_enc :
    (nextOf (step { encWith fiveSamples 3 with turns := [.resetEnc] })).map (fun t => (t.encN, t.fb)) =
      some (0, fiveSamples) := by decide
/-- U14, U9 and R61 at `exec`: the spec's own refusals. -/
theorem test_exec_refusals :
    refusalOf (exec (.select []) State.reset) = some .frameLength ∧
    refusalOf (exec (.rhaz 0#16 14) State.reset) = some .divisorRange ∧
    refusalOf (exec (.recon 0#4 15) State.reset) = some .shiftRange ∧
    refusalOf (exec (.nib4 8) State.reset) = some .nibbleRange ∧
    refusalOf (exec .decPull (decIn .header)) = some .pullInProgress ∧
    refusalOf (exec (.hdrS5 0#4) State.reset) = some .bytePosition ∧
    refusalOf (exec .refill { State.reset with decState := .exhausted }) = some .refillNotEmpty := by decide
/-- R11, R27: no entry that is not valid is read. -/
theorem test_exec_unspecified_entry :
    faultOf (exec .decPull { State.reset with decState := .buffered }) = some .unspecifiedEntry := by decide
/-- R37: the status outputs after FX4. -/
theorem test_status_after_fault :
    (nextOf (exec .decPull (decOn [0xE0#8, 0x34#8, 0x40#8]))).map statusOf =
      some ⟨0#4, false, 3#2, 2#2, 0x1E0#12, 0#4, 0#5⟩ := by decide
/-- The table's words, fetched and run from the state at reset: `ENC.PUSH`, `ENC.END`, `DEC.PULL`, a header byte. -/
theorem test_fetched_words_run :
    (nextOf (step (State.reset.withFetchWord 17 5))).map (fun t => (t.fb[0], t.encN)) = some (5#16, 1) ∧
    (nextOf (step (State.reset.withFetchWord 24 0x10000))).map State.encOut = some [.eos] ∧
    (nextOf (step (State.reset.withFetchWord 0 0))).map State.decOut = some [.exhausted] ∧
    (nextOf (step (State.reset.withFetchWord 8 0x50))).map State.refill = some (.data 0x50#8 []) := by decide
theorem test_decodeTableWord :
    decodeTableWord 17 5 = some (.encPush 5#16) ∧ decodeTableWord 24 0x10000 = some (.encEnd 0#16) ∧
    decodeTableWord 0 0 = some .decPull ∧ decodeTableWord 8 0xF0 = some (.hdrS15 0#4) := by decide

/-! ### Witnesses: for each statement with hypotheses, operands and a state that meet them, each clause at its bounds -/

theorem witness_Mag16IsTheMagnitudeView :
    0 ≤ (0#16).toInt ∧ 0 ≤ (0x7FFF#16).toInt ∧ (0xFFFF#16).toInt < 0 ∧ (0x8000#16).toInt < 0 := by decide

theorem witness_LeadingZerosPlaceTheTopBit : 1#16 ≠ 0#16 ∧ clz16 1#16 = 15 ∧ 0x8000#16 ≠ 0#16 ∧ clz16 0x8000#16 = 0 := by
  decide

/-- The least and the greatest exponent, each by a sample (NE1, NE43). -/
theorem witness_NeededRangeIsExact :
    1 ≤ 1 ∧ 13 ≤ 13 ∧ resultOf (.needed 0#16) = some (.num 1) ∧ resultOf (.needed 0x7FFF#16) = some (.num 13) := by decide

/-- `k = 2` and `k = 13` at both ends of both ranges (NE6, NE8, NE7, NE9, NE40, NE43, NE42, NE44). -/
theorem witness_NeededByRangeOfTheSample :
    ([8#16, 15#16, -9#16, -16#16].all fun x => resultOf (.needed x) = some (.num 2)) = true ∧
    ([16384#16, 32767#16, -16385#16, 0x8000#16].all fun x => resultOf (.needed x) = some (.num 13)) = true ∧
    ([7#16, -8#16].all fun x => resultOf (.needed x) = some (.num 1)) = true := by decide

theorem witness_SelectPicksTheFirstToReachTheMode :
    (1 ≤ [0x8000#16].length ∧ [0x8000#16].length ≤ 16 ∧ resultOf (.select [0x8000#16]) = some (.num 13)) ∧
    (List.replicate 16 100#16).length = 16 ∧ resultOf (.select (List.replicate 16 100#16)) = some (.num 5) := by decide

/-- `k = 0`, `k = 13`, and a tie (QU46). -/
theorem witness_RhazRoundsHalfAwayFromZero :
    resultOf (.rhaz 0x8000#16 0) = some (.num (-32768)) ∧ resultOf (.rhaz 0x8000#16 13) = some (.num (-4)) ∧
    resultOf (.rhaz 2048#16 12) = some (.num 1) ∧ 2 * ((2048#16).toInt - 1 * 2 ^ 12).natAbs = 2 ^ 12 := by decide

/-- `k = 1` and `k = 13`; `j` of either sign; the most negative sample and another. -/
theorem witness_RhazIntervals :
    (1 ≤ 1 ∧ 13 ≤ 13) ∧ (1 : Int) ≤ 1 ∧ (-1 : Int) ≤ -1 ∧ 1#16 ≠ 0x8000#16 ∧
    resultOf (.rhaz 1#16 1) = some (.num 1) ∧ resultOf (.rhaz (-1#16) 1) = some (.num (-1)) ∧
    resultOf (.rhaz 4095#16 13) = some (.num 0) ∧ resultOf (.rhaz 0x8000#16 13) = some (.num (-4)) := by decide

/-- A quotient at 7, at 8, at -8, at -9 and between (QU2, QU3, QU4, QU5, QU1), and shift 14 (QU51). -/
theorem witness_QuantClampsTheRoundedQuotient :
    (1 ≤ 1 ∧ 14 ≤ 14) ∧ rhaz 7#16 0 = 7 ∧ rhaz 8#16 0 = 8 ∧ rhaz (-8#16) 0 = -8 ∧ rhaz (-9#16) 0 = -9 ∧
    rhaz 0#16 0 = 0 ∧ resultOf (.quant 0x8000#16 14) = some (.num (-4)) := by decide

/-- Shift 1 inside and outside the nibble's range, and shifts 2 and 14 at each threshold (QU13, QU16, QU53). -/
theorem witness_QuantSaturationThresholds :
    (-8 ≤ (7#16).toInt ∧ (7#16).toInt ≤ 7) ∧ (2 ≤ 2 ∧ 14 ≤ 14) ∧ resultOf (.quant 13#16 2) = some (.num 7) ∧
    resultOf (.quant (-15#16) 2) = some (.num (-8)) ∧ resultOf (.quant 4095#16 14) = some (.num 0) := by decide

theorem witness_NibblePatternsAreTwosComplement :
    ((-8 : Int) ≤ -8 ∧ (7 : Int) ≤ 7 ∧ (0 : Int) ≤ 0 ∧ (-1 : Int) < 0) ∧ (7#4).toNat ≤ 7 ∧ 8 ≤ (8#4).toNat := by decide

/-- Not saturated at either end, at shift 1, saturated above and below (QU2, QU4, QU3, QU5), shift 14 (QU51), a tie (QU8). -/
theorem witness_QuantizationErrorBound :
    rhaz 7#16 0 = 7 ∧ rhaz (-8#16) 0 = -8 ∧ 8 ≤ rhaz 8#16 0 ∧ rhaz (-9#16) 0 ≤ -9 ∧ 1 ≤ 14 ∧ 14 ≤ 14 ∧
    rhaz 0x8000#16 13 = -4 ∧ 2 ≤ 2 ∧ (1#16).toInt.natAbs % 2 ^ (2 - 1) = 2 ^ (2 - 2) := by decide

/-- PK1 and PK6. -/
theorem witness_HeaderAndDataBytesArePacked :
    1 ≤ 1 ∧ 14 ≤ 14 ∧ resultOf (.hdr 1) = some (.byte 0x10#8) ∧ resultOf (.hdr 14) = some (.byte 0xE0#8) := by decide

/-- PK15 and PK18. -/
theorem witness_PackSeqPairsInOrder :
    [0xF#4].length = 1 ∧ resultOf (.packSeq [0xF#4]) = some (.bytes [0xF0#8]) ∧
    (List.replicate 16 6#4).length = 16 ∧
    resultOf (.packSeq (List.replicate 16 6#4)) = some (.bytes (List.replicate 8 0x66#8)) := by decide

/-- FR14, one sample, and FR2, sixteen. -/
theorem witness_EncodeFrameLayout :
    [0x8000#16].length = 1 ∧ resultOf (.encodeFrame [0x8000#16]) = some (.bytes [0xD0#8, 0x80#8]) ∧
    (List.replicate 16 100#16).length = 16 ∧
    resultOf (.encodeFrame (List.replicate 16 100#16)) = some (.bytes (0x50#8 :: List.replicate 8 0x66#8)) := by decide

theorem witness_EncodeTakesFramesOnTheirOwn :
    ([] : List Sample) = [] ∧ [7#16] ≠ [] ∧ (List.replicate 16 31#16).length % 16 = 0 := by decide

/-- `cnt` at 1, at 15, at 16, and outside at 0 and 17. -/
theorem witness_EmitPutsTheBlockOfTheFrame :
    (1 ≤ 1 ∧ 1 = (encWith fiveSamples 1).encN.val) ∧ (1 ≤ 15 ∧ 15 = (encWith fiveSamples 15).encN.val) ∧
    (1 ≤ 16 ∧ 16 = 16 ∧ (encWith fiveSamples 15).encN.val = 15) ∧ (0 = 0 ∧ 16 < 17) := by decide

/-- A finished encoder that is offered a token. -/
def finished : State := { State.reset with encDone := true, encIn := [5#17], turns := [.enc] }

theorem witness_EncPushStoresAndEmitsTheSixteenth :
    (State.reset.encDone = false ∧ State.reset.encN.val < 15) ∧ (encWith fiveSamples 14).encN.val < 15 ∧
    ((encWith fiveSamples 15).encDone = false ∧ (encWith fiveSamples 15).encN.val = 15) ∧ finished.encDone = true := by
  decide

theorem witness_EncEndFlushesAndSignalsTheEnd :
    (State.reset.encDone = false ∧ State.reset.encN = 0) ∧
    (encWith fiveSamples 1).encDone = false ∧ 0 < (encWith fiveSamples 1).encN.val ∧
    0 < (encWith fiveSamples 15).encN.val ∧ finished.encDone = true := by decide

theorem witness_FinishedEncoderRefusesTokens :
    finished.encDone = true ∧ finished.turns = [.enc] ∧ finished.encIn = [5#17] := by decide

theorem witness_EncoderAgreesWithTheStreamFunction : State.reset.encN = 0 ∧ State.reset.encDone = false := by decide

/-- `sh` at 1, 13 and 14, and `d` at the bounds of its clause (RC14, RC22, RC27). -/
theorem witness_ReconIsTheExactProduct :
    1 ≤ 1 ∧ 13 ≤ 13 ∧ 14 ≤ 14 ∧ resultOf (.recon 7#4 13) = some (.num 28672) ∧
    resultOf (.recon 0xC#4 14) = some (.num (-32768)) ∧ sext4 0xC#4 = -4 ∧ sext4 3#4 = 3 := by decide

theorem witness_HeaderAndDataBytesAreUnpacked :
    1 ≤ 1 ∧ 14 ≤ 14 ∧ resultOf (.unpack 0x12#8 1) = some (.pair 1 2) ∧
    resultOf (.unpack 0x3C#8 14) = some (.pair 24576 (-32768)) := by decide

/-- Shifts 0 and 15; FX4, whose value at index 1 is the first outside; WS7, whose values are all inside; a lone header. -/
theorem witness_DecodeTakesBlocksByPosition :
    ((0x0F#8).toNat / 16 = 0 ∧ (0xF0#8).toNat / 16 = 15) ∧ ((0x10#8).toNat / 16 = 1 ∧ (0xE0#8).toNat / 16 = 14) ∧
    ((unpackAll 14 [0x34#8, 0x40#8])[0]? = some 24576 ∧ (unpackAll 14 [0x34#8, 0x40#8])[1]? = some 32768) ∧
    ((unpackAll 14 [0x3C#8, 0x10#8]).all fun v => -32768 ≤ v ∧ v ≤ 32767) = true ∧ unpackAll 1 [] = [] := by decide

/-- An empty source; the words of a reserved header, of a lone header, of FX4, of WS7, and of a full block. -/
theorem witness_RefillOutcomesByPriority :
    (State.reset.decState = .empty ∧ State.reset.refill = .idle ∧ answersEnd State.reset.decIn = true) ∧
    (decOn [0xF0#8]).decIn = wordsOf [0xF0#8] ++ [0x100#9] ∧ answersEnd [0x100#9] = true ∧
    (decOn [0x10#8]).decIn = wordsOf (0x10#8 :: []) ++ [0x100#9] ∧
    (decOn [0xE0#8, 0x34#8, 0x40#8]).decIn = wordsOf (0xE0#8 :: [0x34#8, 0x40#8]) ++ [0x100#9] ∧
    (unpackAll 14 [0x34#8, 0x40#8])[1]? = some 32768 ∧
    ((unpackAll 14 [0x3C#8, 0x10#8]).all fun v => -32768 ≤ v ∧ v ≤ 32767) = true ∧
    (List.replicate 8 0x66#8).length = 8 := by decide

/-- A buffer of two samples of which the next is `SB[rd]`. -/
def buffered (rd : Fin 16) : State := { State.reset with decState := .buffered, decCnt := 2, decRd := rd }

theorem witness_PullAnswersByState :
    (State.reset.refill = .idle ∧ State.reset.decState = .empty) ∧
    ({ State.reset with decState := .exhausted } : State).decState = .exhausted ∧
    ({ State.reset with decState := .faulted } : State).decState = .faulted ∧
    ((buffered 0).decState = .buffered ∧ (buffered 0).decRd.val + 1 < (buffered 0).decCnt.val) ∧
    (buffered 1).decState = .buffered ∧ (buffered 1).decRd.val + 1 = (buffered 1).decCnt.val := by decide

theorem witness_DecoderAgreesWithTheStreamFunction :
    (decOn [0x10#8, 0x12#8]).decState = .empty ∧ (decOn [0x10#8, 0x12#8]).refill = .idle ∧
    (decOn [0x10#8, 0x12#8]).decIn = wordsOf [0x10#8, 0x12#8] ++ [0x100#9] ∧ answersEnd [0x100#9] = true ∧
    2 ≤ (decodeStream [0x10#8, 0x12#8]).1.length := by decide

/-- FR20 and FR2. -/
theorem witness_FrameRoundTrip :
    [7#16].length = 1 ∧ [7#16].length % 2 = 1 ∧ (List.replicate 16 100#16).length = 16 ∧
    resultOf (.decode [0x10#8, 0x70#8]) = some (.stream [7#16, 0#16] .exhausted) := by decide

/-- WS7, a short block at shift 14, and the stream of no block. -/
theorem witness_WellFormedStreamsDecodeWithoutFault :
    wellFormedStream [0xE0#8, 0x3C#8, 0x10#8] = true ∧ wellFormedStream [] = true ∧
    wellFormedStream [0xE0#8, 0x34#8] = false ∧ wellFormedStream [0x10#8] = false ∧
    wellFormedStream [0x1F#8, 0x12#8] = false := by decide

/-- A decoder with a fault, pulled again, and the same decoder reset. -/
def faultedDec (ts : List Turn) : State :=
  { State.reset with decState := .faulted, decCause := .overflow, decInfo := 0x1E0#12, turns := ts }

/-- A decoder that has reported its end. -/
def exhaustedDec : State := { State.reset with decState := .exhausted, turns := [.pull] }

theorem witness_TerminalDecoderStatesAreLeftByResetOnly :
    BlockInv (faultedDec [.pull]) ∧ (nextOf (step (faultedDec [.pull]))).isSome = true ∧
    (faultedDec [.pull]).decState = .faulted := by decide

theorem witness_TerminalDecoderStatesAreLeftByResetOnly_reset :
    BlockInv (faultedDec [.resetDec]) ∧
    (nextOf (step (faultedDec [.resetDec]))).map State.decState = some .empty := by decide

theorem witness_TerminalDecoderStatesAreLeftByResetOnly_exhausted :
    BlockInv exhaustedDec ∧ (nextOf (step exhaustedDec)).isSome = true ∧ exhaustedDec.decState = .exhausted := by decide

theorem witness_FinishedEncoderIsLeftByResetOnly :
    ({ finished with turns := [.pull] } : State).encDone = true ∧
    (nextOf (step { finished with turns := [.pull] })).isSome = true ∧
    (nextOf (step { finished with turns := [.resetEnc] })).map State.encDone = some false := by decide

theorem witness_ReservedHeaderFaults : (decIn .header).refill = .header := by decide

theorem witness_LegalHeaderOpensABlock : (decIn .header).refill = .header := by decide

/-- No value yet, seven data bytes' values at the bounds of `i16`, and the last byte's values at them too. -/
theorem witness_DataByteJoinsTheBlock :
    ((decIn (.data 0x10#8 [])).refill = .data 0x10#8 [] ∧ ([] : List Int).length < 14) ∧
    (decIn (.data 0xD0#8 (List.replicate 14 (-32768)))).refill = .data 0xD0#8 (List.replicate 14 (-32768)) ∧
    (List.replicate 14 (-32768 : Int)).length = 14 ∧
    ((List.replicate 14 (-32768) ++ [recon 8#4 13, recon 7#4 13]).all fun v => -32768 ≤ v ∧ v ≤ 32767) = true := by
  decide

/-- The least index at its lower and its upper bound. -/
theorem witness_OverflowFaultsWithTheLeastIndex :
    ((decIn (.data 0xE0#8 (32768 :: List.replicate 13 0))).refill = .data 0xE0#8 (32768 :: List.replicate 13 0) ∧
      ((32768 :: List.replicate 13 0) ++ [recon 0#4 14, recon 0#4 14])[0]? = some 32768) ∧
    ((List.replicate 14 0) ++ [recon 3#4 14, recon 4#4 14])[15]? = some 32768 ∧
    (((List.replicate 14 0) ++ [recon 3#4 14]).all fun v => -32768 ≤ v ∧ v ≤ 32767) = true := by decide

/-- A pull of `DEC`'s turn with the source at its end. -/
def endNext (r : Refill) : State := { decIn r with turns := [.dec] }

/-- The same of a block that an `End` closes after one data byte and after seven. -/
theorem witness_OverflowFaultsWithTheLeastIndex_end :
    ((endNext (.data 0xE0#8 [32768, 0])).refill = .data 0xE0#8 [32768, 0] ∧
      answersEnd (endNext (.data 0xE0#8 [32768, 0])).decIn = true ∧ [(32768 : Int), 0][0]? = some 32768) ∧
    (endNext (.data 0xE0#8 [32768, 0])).turns = [.dec] ∧
    (List.replicate 13 0 ++ [(32768 : Int)])[13]? = some 32768 ∧
    (nextOf (step (endNext (.data 0xE0#8 (List.replicate 13 0 ++ [32768]))))).map State.decInfo = some 0xDE0#12 := by decide

theorem witness_BytesOutOfPositionAreRefused :
    State.reset.refill ≠ .header ∧ State.reset.refill = .idle ∧ (decIn .header).refill = .header ∧
    (decIn (.data 0x10#8 [])).refill ≠ .header := by decide

theorem witness_PullByTokenRefinesPull : State.reset.decState = .empty ∧ State.reset.refill = .idle := by decide

/-- A pull on a block of one data byte. -/
def pullOnBlock : State := { decOn [0x10#8, 0x12#8] with turns := [.pull] }

theorem witness_EveryStepKeepsTheInvariant :
    BlockInv pullOnBlock ∧ (nextOf (step pullOnBlock)).map State.decState = some .buffered := by decide

theorem witness_EveryOperationKeepsTheInvariant :
    BlockInv (decIn (.data 0x10#8 [1, 2])) ∧ (nextOf (exec (.data 1#4 2#4) (decIn (.data 0x10#8 [1, 2])))).isSome = true := by
  decide

theorem witness_PullAlwaysAnswersOnce : BlockInv State.reset ∧ State.reset.refill = .idle := by decide

theorem witness_DecoderIsLazy :
    BlockInv pullOnBlock ∧ (nextOf (step pullOnBlock)).map State.decIn = some [0x100#9] := by decide

theorem witness_OutputsOnlyGrow :
    (nextOf (step { State.reset with encIn := [0x10000#17], turns := [.enc] })).map State.encOut = some [.eos] := by decide

/-- Two states that differ in every entry of `FB` and `SB`, none of which is valid. -/
theorem witness_StaleEntriesAreNeverRead :
    SameButStale State.reset { State.reset with fb := fiveSamples, sb := fiveSamples } :=
  ⟨by decide, fun _ _ h => absurd h (Nat.not_lt_zero _), fun _ _ _ h => absurd h (Nat.not_lt_zero _)⟩

theorem witness_UnitsLeaveEachOtherAlone :
    (nextOf (exec (.encPush 5#16) State.reset)).isSome = true ∧ (nextOf (exec (.encEnd 0#16) State.reset)).isSome = true ∧
    (nextOf (exec (.emit 1) (encWith fiveSamples 1))).isSome = true ∧ (nextOf (exec .refill State.reset)).isSome = true ∧
    (nextOf (exec .decPull State.reset)).isSome = true ∧
    (nextOf (exec (decodeHeader 0x10#8) (decIn .header))).isSome = true ∧
    (nextOf (exec (decodeData 0x10#8) (decIn (.data 0x10#8 [])))).isSome = true := by decide

theorem witness_EncoderAndDecoderCommute :
    ((nextOf (exec (.encPush 5#16) State.reset)).bind fun t => nextOf (exec .decPull t)).isSome = true ∧
    ((nextOf (exec (.encEnd 0#16) State.reset)).bind fun t => nextOf (exec .decPull t)).isSome = true ∧
    ((nextOf (exec .decPull State.reset)).bind fun t => nextOf (exec (.encPush 5#16) t)).isSome = true ∧
    ((nextOf (exec .decPull State.reset)).bind fun t => nextOf (exec (.encEnd 0#16) t)).isSome = true := by decide

theorem witness_PrimitivesOnlyReturnAValue :
    (encode (.quant 0#16 14) = none ∧ Instr.quant 0#16 14 ≠ .refill ∧ wellFormed (.quant 0#16 14) = true) ∧
    encode (.quant 0#16 15) = none ∧ wellFormed (.quant 0#16 15) = false := by decide

theorem witness_OperandsOutsideTheirDomainAreRefused : 14 ≤ 14 ∧ (-9 : Int) < -8 ∧ (7 : Int) < 8 ∧ 0 = 0 ∧ 15 ≤ 15 := by
  decide

theorem witness_UnitResetsTouchTheirUnitOnly :
    ({ State.reset with turns := [.resetEnc] } : State).turns = [.resetEnc] ∧
    (({ State.reset with turns := [.resetDec] } : State).turns = [.resetDec] ∧ State.reset.refill = .idle) ∧
    ({ decIn .header with turns := [.resetDec] } : State).turns = [.resetDec] ∧ (decIn .header).refill ≠ .idle := by decide

theorem witness_DecodeAndEncodeAgree :
    encode (.encEnd 0xFFFF#16) = some (.t17, 0x1FFFF) ∧ decodeWord .t17 0x1FFFF = .instr (.encEnd 0xFFFF#16) := by decide

/-- The least and the greatest word of each width, and the least that is too wide. -/
theorem witness_TableRowsSelectWhatIsDecoded :
    (0 < 2 ^ formatWidth .q0 ∧ 0xFF < 2 ^ formatWidth .header ∧ 0xFF < 2 ^ formatWidth .data ∧
      0x1FFFF < 2 ^ formatWidth .t17) ∧
    selectedRows .header 0xFF = ["HDR.S15"] ∧ selectedRows .data 0xFF = ["DATA"] ∧
    2 ^ formatWidth .q0 ≤ 1 ∧ 2 ^ formatWidth .header ≤ 0x100 ∧ 2 ^ formatWidth .t17 ≤ 0x20000 := by decide

theorem witness_TokenFormats : (0xFF#9).toNat < 256 ∧ 256 ≤ (0x100#9).toNat ∧ 256 ≤ (0x1FF#9).toNat := by decide

theorem witness_EndOfTheSourceIsPermanent :
    answersEnd [] = true ∧ answersEnd [0x1FF#9, 0x010#9] = true ∧ answersEnd [0x0FF#9] = false := by decide

theorem witness_StepRunsTheFetchedOperation :
    (State.reset.withFetchWord 17 5).turns = [.enc] ∧ (State.reset.withFetchWord 17 5).encIn = [5#17] ∧
    decodeWord .t17 (5#17).toNat = .instr (.encPush 5#16) ∧ (State.reset.withFetchWord 0 0).turns = [.pull] ∧
    (State.reset.withFetchWord 8 0x50).turns = [.dec] ∧ (State.reset.withFetchWord 8 0x50).refill = .header ∧
    (State.reset.withFetchWord 8 0x50).decIn = [t9Word (.byte 0x50#8)] ∧
    decodeWord .data (0x50#8).toNat = .instr (.data 5#4 0#4) ∧ (decIn (.data 0x50#8 [])).refill = .data 0x50#8 [] := by
  decide

theorem witness_TokenPullsTakeOneTokenAStep :
    (State.reset.refill = .idle ∧ State.reset.decState = .empty) ∧ (buffered 0).decState ≠ .empty ∧
    ((decIn .header).refill = .header ∧ answersEnd (decIn .header).decIn = true) ∧
    (decIn (.data 0x10#8 [])).refill = .data 0x10#8 [] ∧ (decIn .header).refill ≠ .idle ∧ (decIn .header).turns = [] ∧
    (State.reset.withFetchWord 8 0x50).refill ≠ .idle ∧ answersEnd (State.reset.withFetchWord 8 0x50).decIn = false ∧
    (nextOf (step (State.reset.withFetchWord 8 0x50))).isSome = true := by decide

/-- An `End` after one data byte and after seven. -/
theorem witness_TokenPullsTakeOneTokenAStep_short :
    ((endNext (.data 0x10#8 [-8, 7])).turns = [.dec] ∧ (endNext (.data 0x10#8 [-8, 7])).refill = .data 0x10#8 [-8, 7] ∧
      answersEnd (endNext (.data 0x10#8 [-8, 7])).decIn = true ∧
      (nextOf (step (endNext (.data 0x10#8 [-8, 7])))).map State.decOut = some [.sample (-8#16)]) ∧
    (List.replicate 14 (32767 : Int)).length = 14 ∧
    (nextOf (step (endNext (.data 0xD0#8 (List.replicate 14 32767))))).map State.decCnt = some 14 := by decide

theorem witness_IdleBlockStandsStill :
    State.reset.turns = [] ∧ State.reset.refill = .idle ∧ State.reset.encIn = [] ∧
    ({ State.reset with turns := [.enc] } : State).turns = [.enc] ∧
    ({ State.reset with turns := [.dec] } : State).turns = [.dec] := by decide
end

section
/-! PROOFS. The scope (spec 00): the count of leading zeros of R11. -/

namespace Sys2Proof.Machine

/-- A word that is not zero has a one bit, so its count stays below the width. -/
theorem clz16_le_of_ne_zero {u : BitVec 16} (hu : u ≠ 0#16) : clz16 u ≤ 15 := by
  have hpos : 0 < u.toNat := Nat.pos_of_ne_zero (BitVec.toNat_ne.mp hu)
  by_contra hc
  have hlt : u.toNat < 2 ^ (16 - 16) := (le_clz16_iff u le_rfl).mp (by omega)
  omega

/-- Settles O2: `clz16 u` reaches its own value and not the next one, and each of the two comparisons is a bound on
`u` by a power of two. -/
theorem leadingZerosPlaceTheTopBit : Obligations.LeadingZerosPlaceTheTopBit := by
  refine ⟨by decide, fun u hu => ?_⟩
  have hz : clz16 u ≤ 15 := clz16_le_of_ne_zero hu
  have upper : u.toNat < 2 ^ (16 - clz16 u) := (le_clz16_iff u (by omega)).mp le_rfl
  have lower : ¬ u.toNat < 2 ^ (16 - (clz16 u + 1)) :=
    (le_clz16_iff u (by omega)).not.mp (Nat.not_succ_le_self _)
  rw [show 16 - (clz16 u + 1) = 15 - clz16 u by omega] at lower
  exact ⟨hz, Nat.le_of_not_lt lower, upper⟩

end Sys2Proof.Machine
end

section
/-! PROOFS. The state (spec 10): the kinds of operations and what each leaves alone (R20, R36, R63). -/

namespace Sys2Proof.Machine

/-! ### The kinds of operations -/

/-- The rows of the operation table by what they act on: a value returned to the caller, the encoder, the pull, or a
byte of `dec_in` by its position (R80, R92). -/
inductive OpKind : Instr → Prop where
  | value {i : Instr} (hcode : encode i = none) (hrefill : i ≠ .refill) (hemit : ∀ c, i ≠ .emit c) : OpKind i
  | emit (c : Nat) : OpKind (.emit c)
  | encPush (x : Sample) : OpKind (.encPush x)
  | encEnd (w : BitVec 16) : OpKind (.encEnd w)
  | refill : OpKind .refill
  | decPull : OpKind .decPull
  | header (b : Byte) : OpKind (decodeHeader b)
  | data (b : Byte) : OpKind (decodeData b)

theorem OpKind.headerRow {i : Instr} (k low : Nib) (h : decodeHeader (joinNibs k low) = i) : OpKind i :=
  h ▸ .header _

theorem opKind (i : Instr) : OpKind i := by
  cases i with
  | emit c => exact .emit c
  | encPush x => exact .encPush x
  | encEnd w => exact .encEnd w
  | refill => exact .refill
  | decPull => exact .decPull
  | hdrS0 low => exact .headerRow 0#4 low (by simp [decodeHeader])
  | hdrS1 low => exact .headerRow 1#4 low (by simp [decodeHeader])
  | hdrS2 low => exact .headerRow 2#4 low (by simp [decodeHeader])
  | hdrS3 low => exact .headerRow 3#4 low (by simp [decodeHeader])
  | hdrS4 low => exact .headerRow 4#4 low (by simp [decodeHeader])
  | hdrS5 low => exact .headerRow 5#4 low (by simp [decodeHeader])
  | hdrS6 low => exact .headerRow 6#4 low (by simp [decodeHeader])
  | hdrS7 low => exact .headerRow 7#4 low (by simp [decodeHeader])
  | hdrS8 low => exact .headerRow 8#4 low (by simp [decodeHeader])
  | hdrS9 low => exact .headerRow 9#4 low (by simp [decodeHeader])
  | hdrS10 low => exact .headerRow 10#4 low (by simp [decodeHeader])
  | hdrS11 low => exact .headerRow 11#4 low (by simp [decodeHeader])
  | hdrS12 low => exact .headerRow 12#4 low (by simp [decodeHeader])
  | hdrS13 low => exact .headerRow 13#4 low (by simp [decodeHeader])
  | hdrS14 low => exact .headerRow 14#4 low (by simp [decodeHeader])
  | hdrS15 low => exact .headerRow 15#4 low (by simp [decodeHeader])
  | data hi lo =>
    have h : decodeData (joinNibs hi lo) = .data hi lo := by simp [decodeData]
    exact h ▸ .data _
  | _ => exact .value rfl nofun nofun

/-! ### Operations that return a value -/

/-- An operation that no bits select, other than `EMIT` and `REFILL`, is its value behind the check of its domain.
Where every operand is in the domain no refusal is met, and any name serves for it. -/
theorem exec_eq_returnsIf {i : Instr} (hcode : encode i = none) (hrefill : i ≠ .refill) (hemit : ∀ c, i ≠ .emit c) :
    ∃ (why : Refusal) (v : Value), v ≠ .nothing ∧ ∀ s, exec i s = returnsIf (wellFormed i) why v s := by
  cases i with
  | mag16 x => exact ⟨.frameLength, .u16 (mag16 x), nofun, fun _ => rfl⟩
  | needed x => exact ⟨.frameLength, .num (needed x), nofun, fun _ => rfl⟩
  | pack a b => exact ⟨.frameLength, .byte (pack a b), nofun, fun _ => rfl⟩
  | encode xs => exact ⟨.frameLength, .bytes (encodeStream xs), nofun, fun _ => rfl⟩
  | shiftOf h => exact ⟨.frameLength, .num (shiftOf h), nofun, fun _ => rfl⟩
  | sext4 n => exact ⟨.frameLength, .num (sext4 n), nofun, fun _ => rfl⟩
  | decode bs => exact ⟨.frameLength, .stream (decodeStream bs).1 (decodeStream bs).2, nofun, fun _ => rfl⟩
  | select f => exact ⟨_, .num (select f), nofun, fun _ => rfl⟩
  | rhaz x k => exact ⟨_, .num (rhaz x k), nofun, fun _ => rfl⟩
  | quant x sh => exact ⟨_, .num (quant x sh), nofun, fun _ => rfl⟩
  | nib4 q => exact ⟨_, .nib (nib4 q), nofun, fun _ => rfl⟩
  | hdr sh => exact ⟨_, .byte (hdr sh), nofun, fun _ => rfl⟩
  | packSeq ns => exact ⟨_, .bytes (packSeq ns), nofun, fun _ => rfl⟩
  | encodeFrame f => exact ⟨_, .bytes (encodeFrame f), nofun, fun _ => rfl⟩
  | recon n sh => exact ⟨_, .num (recon n sh), nofun, fun _ => rfl⟩
  | unpack b sh => exact ⟨_, .pair (unpack b sh).1 (unpack b sh).2, nofun, fun _ => rfl⟩
  | emit c => exact absurd rfl (hemit c)
  | refill => exact absurd rfl hrefill
  | _ => cases hcode

/-- Settles O49: such an operation is its value behind the check of its domain, and the check is `wellFormed`. -/
theorem primitivesOnlyReturnAValue : Obligations.PrimitivesOnlyReturnAValue := by
  intro i s hcode hrefill hemit
  obtain ⟨why, v, hv, hexec⟩ := exec_eq_returnsIf hcode hrefill hemit
  refine ⟨fun hin => ⟨v, hv, ?_⟩, fun hout => ⟨why, ?_⟩⟩
  · rw [hexec, hin]; rfl
  · rw [hexec, hout]; rfl

/-! ### What each unit leaves alone -/

theorem emit_next {c : Nat} {s t : State} (h : exec (.emit c) s = .next t) : t = emitBlock c s := by
  change execEmit c s = .next t at h
  rw [execEmit] at h
  split at h <;> cases h
  rfl

/-- What `REFILL` answers, if it answers a next state: its effect in `EMPTY`. -/
theorem refill_next {s t : State} (h : exec .refill s = .next t) :
    s.decState = .empty ∧ s.refill = .idle ∧ t = refillBlock s := by
  change execRefill s = .next t at h
  rw [execRefill] at h
  split at h
  · rename_i hpre
    cases h
    exact ⟨hpre.1, hpre.2, rfl⟩
  · cases h

/-- Settles O47: each operation's own frame lies inside its unit's fields. -/
theorem unitsLeaveEachOtherAlone : Obligations.UnitsLeaveEachOtherAlone := by
  constructor
  · rintro i s t (⟨x, rfl⟩ | ⟨w, rfl⟩ | ⟨c, rfl⟩) h
    · obtain ⟨-, frame, -⟩ := encPush_frame (x := x) h
      rw [frame]
    · obtain ⟨-, frame, -⟩ := encEnd_frame (w := w) h
      rw [frame]
    · rw [emit_next h]; rfl
  · rintro i s t (rfl | rfl | ⟨b, rfl⟩ | ⟨b, rfl⟩) h
    · obtain ⟨-, -, rfl⟩ := refill_next h
      rw [(refillBlock_frame s).1]
    · rw [(decPull_frame (s := s) h).1]
    · rw [headerInstr_exec] at h
      rw [(headerTaken_frame h).2.1]
    · rw [dataInstr_exec] at h
      rw [(dataTaken_frame h).2.1]

end Sys2Proof.Machine
end

section
/-! PROOFS. The state (spec 10): the invariants of the two units (R26, R33). -/

namespace Sys2Proof.Machine

/-- The decoder's part of the block's invariant (R33). -/
abbrev DecInv (s : State) : Prop := WindowInv s ∧ FaultInv s ∧ RefillInv s

theorem blockInv_iff (s : State) : BlockInv s ↔ EncInv s ∧ DecInv s := Iff.rfl

/-! ### What the decoder's invariant says in each value of `dec_state` -/

theorem decInv_empty_iff {s : State} (hd : s.decState = .empty) :
    DecInv s ↔ s.decRd = 0 ∧ s.decCnt = 0 ∧ s.decCause = .none ∧ s.decInfo = 0#12 ∧ refillOk s.refill = true := by
  simp [DecInv, hd, and_assoc]

theorem decInv_buffered_iff {s : State} (hd : s.decState = .buffered) :
    DecInv s ↔ s.decRd.val < s.decCnt.val ∧ s.decCnt.val % 2 = 0 ∧ s.decCause = .none ∧ s.decInfo = 0#12 ∧
      s.refill = .idle := by
  simp +contextual [DecInv, RefillInv, hd, and_assoc, iff_def, refillOk]

theorem decInv_exhausted_iff {s : State} (hd : s.decState = .exhausted) :
    DecInv s ↔ s.decRd = 0 ∧ s.decCnt = 0 ∧ s.decCause = .none ∧ s.decInfo = 0#12 ∧ s.refill = .idle := by
  simp +contextual [DecInv, RefillInv, hd, and_assoc, iff_def, refillOk]

theorem decInv_faulted_iff {s : State} (hd : s.decState = .faulted) :
    DecInv s ↔ s.decRd = 0 ∧ s.decCnt = 0 ∧ s.decCause ≠ .none ∧ s.refill = .idle := by
  simp +contextual [DecInv, RefillInv, hd, and_assoc, iff_def, refillOk]

/-- A refill in progress is well formed and stands in `EMPTY`. -/
theorem DecInv.empty_of_refill {s : State} (hs : DecInv s) (hr : s.refill ≠ .idle) :
    s.decState = .empty ∧ refillOk s.refill = true := by
  obtain ⟨-, -, hempty, hok⟩ := hs
  exact ⟨hempty hr, hok⟩

theorem refillOk_data_iff (h : Byte) (vs : List Int) :
    refillOk (.data h vs) = true ↔ reservedShift (shiftOf h) = false ∧ vs.length % 2 = 0 ∧ vs.length < 16 := by
  simp [refillOk]

/-! ### The shared operations of the decoder keep it -/

/-- In `EMPTY` the refill in progress may be replaced by any well-formed one. -/
theorem DecInv.with_refill {s : State} (hs : DecInv s) (hd : s.decState = .empty) {r : Refill} (hr : refillOk r = true) :
    DecInv { s with refill := r } := by
  obtain ⟨hrd, hcnt, hcause, hinfo, -⟩ := (decInv_empty_iff hd).mp hs
  exact (decInv_empty_iff (s := { s with refill := r }) hd).mpr ⟨hrd, hcnt, hcause, hinfo, hr⟩

/-- In `EMPTY` with no refill in progress the source may be exhausted. -/
theorem DecInv.with_exhausted {s : State} (hs : DecInv s) (hd : s.decState = .empty) (hidle : s.refill = .idle) :
    DecInv { s with decState := .exhausted } := by
  obtain ⟨hrd, hcnt, hcause, hinfo, -⟩ := (decInv_empty_iff hd).mp hs
  exact (decInv_exhausted_iff rfl).mpr ⟨hrd, hcnt, hcause, hinfo, hidle⟩

theorem decInv_raiseDecFault {c : DecCause} {d : BitVec 12} {s : State} (hc : c ≠ .none) (hr : s.refill = .idle) :
    DecInv (raiseDecFault c d s) :=
  (decInv_faulted_iff rfl).mpr ⟨rfl, rfl, hc, hr⟩

theorem decInv_answerPull {s t : State} (hs : DecInv s) (h : answerPull s = .next t) : DecInv t := by
  obtain ⟨-, rfl⟩ | ⟨-, rfl⟩ | ⟨hd, -, rfl⟩ | ⟨hd, hlt, rfl⟩ := answerPull_cases h
  · exact hs
  · exact hs
  · obtain ⟨-, -, hcause, hinfo, hidle⟩ := (decInv_buffered_iff hd).mp hs
    exact (decInv_empty_iff rfl).mpr ⟨rfl, rfl, hcause, hinfo, by rw [hidle]; rfl⟩
  · obtain ⟨-, hrest⟩ := (decInv_buffered_iff hd).mp hs
    exact (decInv_buffered_iff (by exact hd)).mpr ⟨(decRd_succ hlt).trans_lt hlt, hrest⟩

/-- The end of a refill that has taken at most eight data bytes, two values each. -/
theorem decInv_closeBlock (h : Byte) {vs : List Int} {s : State} (hs : DecInv s) (hd : s.decState = .empty)
    (hidle : s.refill = .idle) (heven : vs.length % 2 = 0) (hlen : vs.length ≤ 16) : DecInv (closeBlock h vs s) := by
  obtain ⟨-, -, hcause, hinfo, -⟩ := (decInv_empty_iff hd).mp hs
  obtain ⟨-, e⟩ | ⟨-, j, -, e⟩ | ⟨hne, -, e⟩ := closeBlock_cases h vs s <;> rw [e]
  · exact hs.with_exhausted hd hidle
  · exact decInv_raiseDecFault nofun hidle
  · have hval : (Fin.ofNat 17 vs.length).val = vs.length := Nat.mod_eq_of_lt (by omega)
    have hpos : 0 < vs.length := List.length_pos_iff.mpr hne
    refine (decInv_buffered_iff rfl).mpr ⟨?_, ?_, hcause, hinfo, hidle⟩
    · rw [hval]; exact hpos
    · rw [hval]; exact heven

theorem decInv_refillBlock {s : State} (hs : DecInv s) (hd : s.decState = .empty) (hidle : s.refill = .idle) :
    DecInv (refillBlock s) := by
  obtain ⟨-, e⟩ | ⟨w, ws, h, -, -, ⟨-, e⟩ | ⟨-, e⟩⟩ := refillBlock_cases s <;> rw [e]
  · exact hs.with_exhausted hd hidle
  · exact decInv_raiseDecFault nofun hidle
  · obtain ⟨-, -, hlen⟩ := takeBytes_suffix 8 ws
    have hvs := unpackAll_length (shiftOf h) (takeBytes 8 ws).1
    exact decInv_closeBlock h hs hd hidle (by omega) (by omega)

theorem decInv_execDecPull {s t : State} (hs : DecInv s) (h : execDecPull s = .next t) : DecInv t := by
  by_cases hidle : s.refill = .idle
  · rw [execDecPull_eq hidle] at h
    split at h
    · exact decInv_answerPull (decInv_refillBlock hs (by assumption) hidle) h
    · exact decInv_answerPull hs h
  · rw [execDecPull, if_neg hidle] at h
    cases h

theorem decInv_headerTaken {b : Byte} {s t : State} (hs : DecInv s) (h : headerTaken b s = .next t) : DecInv t := by
  obtain ⟨hr, -, -⟩ := headerTaken_frame h
  obtain ⟨hd, -⟩ := hs.empty_of_refill (by simp [hr])
  cases hb : reservedShift (shiftOf b) with
  | true =>
    rw [headerTaken_reserved hr hb] at h
    cases h
    exact (decInv_faulted_iff rfl).mpr ⟨rfl, rfl, nofun, rfl⟩
  | false =>
    rw [headerTaken_legal hr hb] at h
    cases h
    exact hs.with_refill hd ((refillOk_data_iff _ _).mpr ⟨hb, rfl, by decide⟩)

theorem decInv_dataTaken {b : Byte} {s t : State} (hs : DecInv s) (h : dataTaken b s = .next t) : DecInv t := by
  obtain ⟨hr, -, -⟩ := dataTaken_frame h
  obtain ⟨hd, hok⟩ := hs.empty_of_refill hr
  cases hdata : s.refill with
  | idle => exact absurd hdata hr
  | header => simp [dataTaken, hdata] at h
  | data hb vs =>
    rw [hdata, refillOk_data_iff] at hok
    obtain ⟨hlegal, heven, hlt⟩ := hok
    have hlen (v w : Int) : (vs ++ [v, w]).length = vs.length + 2 := by simp
    rw [dataTaken_eq hdata] at h
    split at h
    · refine decInv_answerPull (decInv_closeBlock hb (hs.with_refill hd (r := .idle) rfl) hd rfl ?_ ?_) h
      · rw [hlen]; omega
      · rw [hlen]; omega
    · cases h
      exact hs.with_refill hd ((refillOk_data_iff _ _).mpr ⟨hlegal, by rw [hlen]; omega, by rw [hlen]; omega⟩)

/-! ### Every operation keeps the invariant -/

/-- `ENC.PUSH` runs with `enc_done = 0` only, and leaves it 0 (R161). -/
theorem blockInv_encPush {x : Sample} {s t : State} (hs : BlockInv s) (h : exec (.encPush x) s = .next t) : BlockInv t := by
  obtain ⟨hdone, frame, -⟩ := encPush_frame (x := x) h
  rw [frame]
  exact ⟨fun hd => absurd (hd.symm.trans hdone) nofun, hs.2⟩

/-- `ENC.END` sets `enc_done` together with `enc_n <- 0` (R160). -/
theorem blockInv_encEnd {w : BitVec 16} {s t : State} (hs : BlockInv s) (h : exec (.encEnd w) s = .next t) : BlockInv t := by
  obtain ⟨-, frame, -⟩ := encEnd_frame (w := w) h
  rw [frame]
  exact ⟨fun _ => rfl, hs.2⟩

/-- The decoder's operations leave the encoder's invariant alone. -/
theorem encInv_decOperation {i : Instr} {s t : State} (hs : EncInv s)
    (hi : i = .refill ∨ i = .decPull ∨ (∃ b, i = decodeHeader b) ∨ ∃ b, i = decodeData b) (h : exec i s = .next t) :
    EncInv t := by
  rw [unitsLeaveEachOtherAlone.2 i s t hi h]
  exact hs

/-- Settles O42, by the kind of the operation. -/
theorem everyOperationKeepsTheInvariant : Obligations.EveryOperationKeepsTheInvariant := by
  intro i s t hs h
  obtain ⟨henc, hdec⟩ := (blockInv_iff s).mp hs
  cases opKind i with
  | value hcode hrefill hemit =>
    obtain ⟨why, v, -, hexec⟩ := exec_eq_returnsIf hcode hrefill hemit
    rw [returnsIf_next ((hexec s).symm.trans h)]
    exact hs
  | emit c =>
    rw [emit_next h]
    exact hs
  | encPush x => exact blockInv_encPush hs h
  | encEnd w => exact blockInv_encEnd hs h
  | refill =>
    refine ⟨encInv_decOperation henc (by simp) h, ?_⟩
    obtain ⟨hd, hidle, rfl⟩ := refill_next h
    exact decInv_refillBlock hdec hd hidle
  | decPull => exact ⟨encInv_decOperation henc (by simp) h, decInv_execDecPull hdec h⟩
  | header b =>
    refine ⟨encInv_decOperation henc (by simp) h, ?_⟩
    rw [headerInstr_exec] at h
    exact decInv_headerTaken hdec h
  | data b =>
    refine ⟨encInv_decOperation henc (by simp) h, ?_⟩
    rw [dataInstr_exec] at h
    exact decInv_dataTaken hdec h

/-! ### Every step keeps the invariant -/

theorem decInv_stepTake {s t : State} (hs : DecInv s) (h : stepTake s = .next t) : DecInv t := by
  obtain ⟨-, -, e⟩ | ⟨-, -, e⟩ | ⟨hr, -, e⟩ | ⟨hb, vs, hr, -, e⟩ | ⟨w, ws, b, -, -, -, e⟩ | ⟨w, ws, b, hb, vs, -, -, -, e⟩ :=
    stepTake_cases s <;> rw [e] at h
  · cases h; exact hs
  · cases h
  · obtain ⟨hd, -⟩ := hs.empty_of_refill (by simp [hr])
    exact decInv_answerPull ((hs.with_refill hd (r := .idle) rfl).with_exhausted hd rfl) h
  · obtain ⟨hd, hok⟩ := hs.empty_of_refill (by simp [hr])
    rw [hr, refillOk_data_iff] at hok
    obtain ⟨-, heven, hlt⟩ := hok
    exact decInv_answerPull (decInv_closeBlock hb (hs.with_refill hd (r := .idle) rfl) hd rfl heven hlt.le) h
  · exact decInv_headerTaken (s := { s with decIn := ws }) hs h
  · exact decInv_dataTaken (s := { s with decIn := ws }) hs h

theorem blockInv_stepTake {s t : State} (hs : BlockInv s) (h : stepTake s = .next t) : BlockInv t := by
  obtain ⟨henc, hdec⟩ := (blockInv_iff s).mp hs
  refine ⟨?_, decInv_stepTake hdec h⟩
  rw [(stepTake_frame h).1]
  exact henc

theorem blockInv_resetEnc {s : State} (hs : BlockInv s) : BlockInv (resetEnc s) := ⟨fun _ => rfl, hs.2⟩

theorem blockInv_resetDec {s : State} (hs : BlockInv s) : BlockInv (resetDec s) := by
  obtain ⟨henc, -, -, -, hok⟩ := hs
  exact ⟨henc, (decInv_empty_iff rfl).mpr ⟨rfl, rfl, rfl, rfl, hok⟩⟩

/-- Settles O41: a step is an operation, one `Take` of the pull in progress, an answer, a unit's reset, or the start of a
refill in `EMPTY`, and none of these reads `turns` or `encIn`, which the turn has changed before. -/
theorem everyStepKeepsTheInvariant : Obligations.EveryStepKeepsTheInvariant := by
  intro s t hs h
  obtain ⟨henc, hdec⟩ := (blockInv_iff s).mp hs
  obtain ⟨ts, rfl, -⟩ | ⟨ts, w, ws, -, -, h⟩ | ⟨ts, -, rfl⟩ | ⟨ts, -, -, rfl⟩ | ⟨ts, -, h⟩ | ⟨ts, -, -, h⟩ | ⟨ts, -, -, -, h⟩ |
    ⟨ts, -, -, hd, rfl⟩ := step_cases h
  · exact hs
  · exact everyOperationKeepsTheInvariant (decodeT17 w) { s with turns := ts, encIn := ws } t hs h
  · exact blockInv_resetEnc (s := { s with turns := ts }) hs
  · exact blockInv_resetDec (s := { s with turns := ts }) hs
  · exact blockInv_stepTake (s := { s with turns := ts }) hs h
  · exact everyOperationKeepsTheInvariant .decPull { s with turns := ts } t hs h
  · refine ⟨?_, decInv_answerPull (s := { s with turns := ts }) hdec h⟩
    rw [(answerPull_frame h).1]
    exact henc
  · exact ⟨henc, hdec.with_refill hd rfl⟩

end Sys2Proof.Machine
end

section
/-! PROOFS. The state (spec 10): no step reads an entry of `FB` or `SB` outside its window (R22, R27, U8). -/

namespace Sys2Proof.Machine

variable {s t : State}

/-- Two states that agree but for stale entries are one state with two pairs of buffers. -/
theorem SameButStale.exists_buffers (h : SameButStale s t) : ∃ f b, t = { s with fb := f, sb := b } ∧
    (∀ (i : Nat) (hi : i < 16), i < s.encN.val → s.fb[i] = f[i]) ∧
    (∀ (i : Nat) (hi : i < 16), s.decRd.val ≤ i → i < s.decCnt.val → s.sb[i] = b[i]) :=
  ⟨t.fb, t.sb, h.1.symm, h.2⟩

/-- Both sides of a test that agrees in the two states. -/
theorem SameAnswer.ite {c d : Prop} [Decidable c] [Decidable d] {a a' b b' : Answer} (hcd : c ↔ d)
    (hpos : c → SameAnswer a a') (hneg : ¬c → SameAnswer b b') :
    SameAnswer (if c then a else b) (if d then a' else b') := by
  by_cases hc : c
  · rw [if_pos hc, if_pos (hcd.mp hc)]
    exact hpos hc
  · rw [if_neg hc, if_neg (hcd.not.mp hc)]
    exact hneg hc

/-! ### The fields that control an operation agree -/

theorem SameButStale.encN_eq (h : SameButStale s t) : t.encN = s.encN := by rw [← h.1]
theorem SameButStale.encDone_eq (h : SameButStale s t) : t.encDone = s.encDone := by rw [← h.1]
theorem SameButStale.decCnt_eq (h : SameButStale s t) : t.decCnt = s.decCnt := by rw [← h.1]
theorem SameButStale.decRd_eq (h : SameButStale s t) : t.decRd = s.decRd := by rw [← h.1]
theorem SameButStale.decState_eq (h : SameButStale s t) : t.decState = s.decState := by rw [← h.1]
theorem SameButStale.refill_eq (h : SameButStale s t) : t.refill = s.refill := by rw [← h.1]
theorem SameButStale.encIn_eq (h : SameButStale s t) : t.encIn = s.encIn := by rw [← h.1]
theorem SameButStale.decIn_eq (h : SameButStale s t) : t.decIn = s.decIn := by rw [← h.1]
theorem SameButStale.turns_eq (h : SameButStale s t) : t.turns = s.turns := by rw [← h.1]

/-! ### Updates of the other fields -/

theorem SameButStale.with_turns (h : SameButStale s t) (ts : List Turn) :
    SameButStale { s with turns := ts } { t with turns := ts } := by
  obtain ⟨f, b, rfl, hfb, hsb⟩ := h.exists_buffers
  exact ⟨rfl, hfb, hsb⟩

theorem SameButStale.with_encDone (h : SameButStale s t) (d : Bool) :
    SameButStale { s with encDone := d } { t with encDone := d } := by
  obtain ⟨f, b, rfl, hfb, hsb⟩ := h.exists_buffers
  exact ⟨rfl, hfb, hsb⟩

theorem SameButStale.with_encIn (h : SameButStale s t) (ws : List (BitVec 17)) :
    SameButStale { s with encIn := ws } { t with encIn := ws } := by
  obtain ⟨f, b, rfl, hfb, hsb⟩ := h.exists_buffers
  exact ⟨rfl, hfb, hsb⟩

theorem SameButStale.with_decIn (h : SameButStale s t) (ws : List (BitVec 9)) :
    SameButStale { s with decIn := ws } { t with decIn := ws } := by
  obtain ⟨f, b, rfl, hfb, hsb⟩ := h.exists_buffers
  exact ⟨rfl, hfb, hsb⟩

theorem SameButStale.with_refill (h : SameButStale s t) (r : Refill) :
    SameButStale { s with refill := r } { t with refill := r } := by
  obtain ⟨f, b, rfl, hfb, hsb⟩ := h.exists_buffers
  exact ⟨rfl, hfb, hsb⟩

theorem SameButStale.with_decState (h : SameButStale s t) (d : DecState) :
    SameButStale { s with decState := d } { t with decState := d } := by
  obtain ⟨f, b, rfl, hfb, hsb⟩ := h.exists_buffers
  exact ⟨rfl, hfb, hsb⟩

theorem SameButStale.respond (h : SameButStale s t) (r : Response) :
    SameButStale (respond r s) (respond r t) := by
  obtain ⟨f, b, rfl, hfb, hsb⟩ := h.exists_buffers
  exact ⟨rfl, hfb, hsb⟩

theorem SameButStale.putTokens (h : SameButStale s t) (ts : List OutToken) :
    SameButStale (putTokens ts s) (putTokens ts t) := by
  obtain ⟨f, b, rfl, hfb, hsb⟩ := h.exists_buffers
  exact ⟨rfl, hfb, hsb⟩

/-! ### Updates that empty a window: every entry becomes stale -/

theorem SameButStale.with_encN_zero (h : SameButStale s t) : SameButStale { s with encN := 0 } { t with encN := 0 } := by
  obtain ⟨f, b, rfl, -, hsb⟩ := h.exists_buffers
  exact ⟨rfl, fun _ _ hi => absurd hi (Nat.not_lt_zero _), hsb⟩

theorem SameButStale.with_window_empty (h : SameButStale s t) (d : DecState) :
    SameButStale { s with decState := d, decRd := 0, decCnt := 0 } { t with decState := d, decRd := 0, decCnt := 0 } := by
  obtain ⟨f, b, rfl, hfb, -⟩ := h.exists_buffers
  exact ⟨rfl, hfb, fun _ _ _ hi => absurd hi (Nat.not_lt_zero _)⟩

theorem SameButStale.raiseDecFault (h : SameButStale s t) (c : DecCause) (d : BitVec 12) :
    SameButStale (raiseDecFault c d s) (raiseDecFault c d t) := by
  obtain ⟨f, b, rfl, hfb, -⟩ := h.exists_buffers
  exact ⟨rfl, hfb, fun _ _ _ hi => absurd hi (Nat.not_lt_zero _)⟩

theorem SameButStale.resetEnc (h : SameButStale s t) : SameButStale (resetEnc s) (resetEnc t) :=
  h.with_encN_zero.with_encDone false

theorem SameButStale.resetDec (h : SameButStale s t) : SameButStale (resetDec s) (resetDec t) := by
  obtain ⟨f, b, rfl, hfb, -⟩ := h.exists_buffers
  exact ⟨rfl, hfb, fun _ _ _ hi => absurd hi (Nat.not_lt_zero _)⟩

/-! ### The encoder reads `FB` below `enc_n` -/

theorem frameOf_congr {cnt : Nat} (h : ∀ (i : Nat) (hi : i < 16), i < cnt → s.fb[i] = t.fb[i]) :
    frameOf cnt s = frameOf cnt t := by
  rw [frameOf, frameOf]
  apply List.ext_getElem (by simp)
  intro i hs ht
  simp only [List.length_take, Vector.length_toList] at hs
  simpa using h i (by omega) (by omega)

theorem SameButStale.emitBlock (h : SameButStale s t) {cnt : Nat} (hframe : frameOf cnt s = frameOf cnt t) :
    SameButStale (emitBlock cnt s) (emitBlock cnt t) := by
  rw [Machine.emitBlock, Machine.emitBlock, hframe]
  exact h.putTokens _

/-- A store at `enc_n` makes the entry at `enc_n` the same too. -/
theorem storeFB_agree (h : SameButStale s t) (x : Sample) (i : Nat) (hi : i < 16) (hle : i ≤ s.encN.val) :
    (storeFB x s).fb[i] = (storeFB x t).fb[i] := by
  obtain ⟨f, b, rfl, hfb, -⟩ := h.exists_buffers
  simp only [storeFB_fb, Vector.getElem_set]
  split
  · rfl
  · exact hfb i hi (by omega)

theorem SameButStale.storeFB (h : SameButStale s t) (x : Sample) : SameButStale (storeFB x s) (storeFB x t) := by
  have agree := storeFB_agree h x
  obtain ⟨f, b, rfl, -, hsb⟩ := h.exists_buffers
  exact ⟨rfl, fun i hi hlt => agree i hi (Nat.le_of_lt hlt), hsb⟩

theorem sameAnswer_execEncPush (h : SameButStale s t) (x : Sample) :
    SameAnswer (execEncPush x s) (execEncPush x t) := by
  have agree := storeFB_agree h x
  rw [execEncPush, execEncPush]
  refine .ite (by rw [h.encDone_eq]) (fun _ => rfl) fun _ => .ite (by rw [h.encN_eq]) (fun hn => ?_) fun hn => ?_
  · have hframe : frameOf Config.frameLen (storeFB x s) = frameOf Config.frameLen (storeFB x t) :=
      frameOf_congr fun i hi _ => agree i hi (by omega)
    exact ((h.storeFB x).emitBlock hframe).with_encN_zero
  · have hsucc : (s.encN + 1).val = s.encN.val + 1 := Fin.val_add_one_of_lt' (by omega)
    obtain ⟨f, b, rfl, -, hsb⟩ := h.exists_buffers
    exact ⟨rfl, fun i hi hlt => agree i hi (Nat.le_of_lt_succ (hlt.trans_eq hsucc)), hsb⟩

theorem sameAnswer_execEncEnd (h : SameButStale s t) (w : BitVec 16) :
    SameAnswer (execEncEnd w s) (execEncEnd w t) := by
  rw [execEncEnd, execEncEnd]
  refine .ite (by rw [h.encDone_eq]) (fun _ => rfl) fun _ => .ite (by rw [h.encN_eq]) (fun _ => ?_) fun _ => ?_
  · obtain ⟨f, b, rfl, hfb, -⟩ := h.exists_buffers
    exact (((h.emitBlock (frameOf_congr hfb)).putTokens [.eos]).with_encN_zero).with_encDone true
  · exact (h.putTokens [.eos]).with_encDone true

theorem sameAnswer_token (h : SameButStale s t) (w : BitVec 17) :
    SameAnswer (exec (decodeT17 w) s) (exec (decodeT17 w) t) := by
  obtain ⟨x, e⟩ | ⟨x, e⟩ := decodeT17_cases w <;> rw [e]
  · exact sameAnswer_execEncPush h x
  · exact sameAnswer_execEncEnd h x

/-! ### The decoder reads `SB` from `dec_rd` to `dec_cnt - 1` -/

theorem sameAnswer_deliver (h : SameButStale s t) : SameAnswer (deliver s) (deliver t) := by
  rw [deliver, deliver]
  refine .ite (by rw [h.decRd_eq, h.decCnt_eq]) (fun hlt => ?_) fun _ => rfl
  have hentry : s.sb[s.decRd] = t.sb[t.decRd] := by
    simp only [h.decRd_eq]
    exact h.2.2 _ s.decRd.isLt le_rfl hlt
  rw [hentry]
  refine .ite (by rw [h.decRd_eq, h.decCnt_eq]) (fun _ => (h.with_window_empty .empty).respond _) fun hlast => ?_
  have hsucc : (s.decRd + 1).val = s.decRd.val + 1 := decRd_succ (by omega)
  obtain ⟨f, b, rfl, hfb, hsb⟩ := h.exists_buffers
  exact ⟨rfl, hfb, fun i hi hle => hsb i hi (Nat.le_of_succ_le (hsucc.symm.trans_le hle))⟩

theorem sameAnswer_answerPull (h : SameButStale s t) : SameAnswer (answerPull s) (answerPull t) := by
  cases hd : s.decState with
  | empty => simp [answerPull, h.decState_eq, hd, SameAnswer]
  | buffered =>
    rw [answerPull_buffered hd, answerPull_buffered (h.decState_eq.trans hd)]
    exact sameAnswer_deliver h
  | exhausted =>
    rw [answerPull_exhausted hd, answerPull_exhausted (h.decState_eq.trans hd)]
    exact h.respond .exhausted
  | faulted =>
    rw [answerPull_faulted hd, answerPull_faulted (h.decState_eq.trans hd)]
    obtain ⟨f, b, rfl, -, -⟩ := h.exists_buffers
    exact h.respond _

/-- The entries of the block just stored are its values, whatever `SB` held. -/
theorem storeFrom_zero_getElem {vs : List Int} (sb : Vector Sample 16) {i : Nat} (hi : i < 16) (hlt : i < vs.length) :
    (storeFrom 0 vs sb)[i] = toSample vs[i] := by
  rw [storeFrom_getElem]
  simp [hlt]

theorem SameButStale.closeBlock (h : SameButStale s t) (hb : Byte) (vs : List Int) :
    SameButStale (closeBlock hb vs s) (closeBlock hb vs t) := by
  by_cases hnil : vs = []
  · subst hnil
    exact h.with_decState .exhausted
  · cases hover : firstOverflow vs with
    | some j =>
      rw [closeBlock_overflow s hover, closeBlock_overflow t hover]
      exact h.raiseDecFault _ _
    | none =>
      rw [closeBlock_buffered s hnil hover, closeBlock_buffered t hnil hover]
      obtain ⟨f, b, rfl, hfb, -⟩ := h.exists_buffers
      refine ⟨rfl, hfb, fun i hi _ hlt => ?_⟩
      have hlen : i < vs.length := lt_of_lt_of_le hlt (Nat.mod_le _ _)
      exact (storeFrom_zero_getElem s.sb hi hlen).trans (storeFrom_zero_getElem b hi hlen).symm

theorem SameButStale.refillBlock (h : SameButStale s t) : SameButStale (refillBlock s) (refillBlock t) := by
  rw [Machine.refillBlock, Machine.refillBlock, h.decIn_eq]
  rcases takeWord s.decIn with ⟨_ | hb, ws⟩
  · exact (h.with_decIn ws).with_decState .exhausted
  · dsimp only
    split
    · exact (h.with_decIn ws).raiseDecFault _ _
    · exact (h.with_decIn _).closeBlock _ _

theorem sameAnswer_execDecPull (h : SameButStale s t) : SameAnswer (execDecPull s) (execDecPull t) := by
  rw [execDecPull, execDecPull]
  refine .ite (by rw [h.refill_eq]) (fun _ => ?_) fun _ => rfl
  exact .ite (by rw [h.decState_eq]) (fun _ => sameAnswer_answerPull h.refillBlock) fun _ => sameAnswer_answerPull h

theorem sameAnswer_headerTaken (h : SameButStale s t) (hb : Byte) :
    SameAnswer (headerTaken hb s) (headerTaken hb t) := by
  rw [headerTaken, headerTaken, h.refill_eq]
  cases s.refill with
  | idle => rfl
  | data => rfl
  | header =>
    exact .ite Iff.rfl (fun _ => sameAnswer_answerPull ((h.with_refill .idle).raiseDecFault _ _))
      fun _ => h.with_refill _

theorem sameAnswer_dataTaken (h : SameButStale s t) (b : Byte) : SameAnswer (dataTaken b s) (dataTaken b t) := by
  rw [dataTaken, dataTaken, h.refill_eq]
  cases s.refill with
  | idle => rfl
  | header => rfl
  | data hb vs =>
    exact .ite Iff.rfl (fun _ => sameAnswer_answerPull ((h.with_refill .idle).closeBlock _ _))
      fun _ => h.with_refill _

theorem sameAnswer_endTaken (h : SameButStale s t) : SameAnswer (endTaken s) (endTaken t) := by
  rw [endTaken, endTaken, h.refill_eq]
  cases s.refill with
  | idle => exact h
  | header => exact sameAnswer_answerPull ((h.with_refill .idle).with_decState .exhausted)
  | data hb vs => exact sameAnswer_answerPull ((h.with_refill .idle).closeBlock hb vs)

theorem sameAnswer_byte (h : SameButStale s t) (r : Refill) (b : Byte) :
    SameAnswer (exec (byteAtPosition r b) s) (exec (byteAtPosition r b) t) := by
  have hheader : SameAnswer (exec (decodeHeader b) s) (exec (decodeHeader b) t) := by
    rw [headerInstr_exec, headerInstr_exec]
    exact sameAnswer_headerTaken h b
  cases r with
  | idle => exact hheader
  | header => exact hheader
  | data =>
    rw [byteAtPosition, dataInstr_exec, dataInstr_exec]
    exact sameAnswer_dataTaken h b

/-! ### Turns -/

theorem sameAnswer_stepTake (h : SameButStale s t) : SameAnswer (stepTake s) (stepTake t) := by
  rw [stepTake, stepTake, h.decIn_eq]
  rcases takeWord s.decIn with ⟨_ | b, ws⟩
  · exact sameAnswer_endTaken (h.with_decIn ws)
  · obtain ⟨f, b', rfl, -, -⟩ := h.exists_buffers
    exact sameAnswer_byte (h.with_decIn ws) s.refill b

theorem sameAnswer_stepEnc (h : SameButStale s t) : SameAnswer (stepEnc s) (stepEnc t) := by
  rw [stepEnc, stepEnc, h.encIn_eq]
  cases s.encIn with
  | nil => exact h
  | cons w ws => exact sameAnswer_token (h.with_encIn ws) w

theorem sameAnswer_stepBeginPull (h : SameButStale s t) : SameAnswer (stepBeginPull s) (stepBeginPull t) := by
  rw [stepBeginPull, stepBeginPull]
  exact .ite (by rw [h.decState_eq]) (fun _ => h.with_refill .header) fun _ => sameAnswer_execDecPull h

/-- Settles O46, by the turn that is due: each of the block's operations reads its buffers inside their windows only. -/
theorem staleEntriesAreNeverRead : Obligations.StaleEntriesAreNeverRead := by
  intro s t h
  have hidle : s.refill = .idle ↔ t.refill = .idle := by rw [h.refill_eq]
  rw [step, step, runTurn, runTurn, h.turns_eq]
  cases s.turns with
  | nil => exact .ite hidle (fun _ => h) fun _ => sameAnswer_stepTake h
  | cons turn ts =>
    have hts := h.with_turns ts
    cases turn with
    | enc => exact sameAnswer_stepEnc hts
    | resetEnc => exact hts.resetEnc
    | dec => exact .ite hidle (fun _ => hts) fun _ => sameAnswer_stepTake hts
    | pull => exact .ite hidle (fun _ => sameAnswer_execDecPull hts) fun _ => sameAnswer_stepTake h
    | pullByToken => exact .ite hidle (fun _ => sameAnswer_stepBeginPull hts) fun _ => sameAnswer_stepTake h
    | resetDec => exact .ite hidle (fun _ => hts.resetDec) fun _ => rfl

end Sys2Proof.Machine
end

section
/-! PROOFS. The state (spec 10): the status outputs (R37) and the state at reset (R250). -/

namespace Sys2Proof.Machine

/-- The codes of `dec_state` are distinct (R30). -/
theorem decStateCode_injective : Function.Injective decStateCode := by
  intro d e
  cases d <;> cases e <;> decide

/-- The codes of `dec_cause` are distinct (R31). -/
theorem causeCode_injective : Function.Injective causeCode := by
  intro c d
  cases c <;> cases d <;> decide

/-- Settles O24: each number fits its output, and a code shows one value only. -/
theorem statusOutputsShowTheState : Obligations.StatusOutputsShowTheState := by
  intro s
  have hencN : (BitVec.ofNat 4 s.encN.val).toNat = s.encN.val := Nat.mod_eq_of_lt s.encN.isLt
  have hdecRd : (BitVec.ofNat 4 s.decRd.val).toNat = s.decRd.val := Nat.mod_eq_of_lt s.decRd.isLt
  have hdecCnt : (BitVec.ofNat 5 s.decCnt.val).toNat = s.decCnt.val := Nat.mod_eq_of_lt (by omega)
  have hstate (d : DecState) : s.decState = d ↔ (statusOf s).decState = decStateCode d :=
    decStateCode_injective.eq_iff.symm
  have hcause (c : DecCause) : s.decCause = c ↔ (statusOf s).decCause = causeCode c :=
    causeCode_injective.eq_iff.symm
  exact ⟨hencN, Iff.rfl, hdecRd, hdecCnt, rfl, hstate .empty, hstate .buffered, hstate .exhausted, hstate .faulted,
    hcause .none, hcause .reservedShift, hcause .overflow⟩

/-- Settles O51: the fields of `State.reset` are these values. -/
theorem resetStateHoldsTheResetValues : Obligations.ResetStateHoldsTheResetValues :=
  ⟨rfl, rfl, rfl, rfl, rfl, rfl, rfl⟩

/-- Settles O40: `enc_n` is 0, the decoder is in `EMPTY` with its window and fault registers at 0, and no refill is in
progress. -/
theorem resetMeetsTheInvariant : Obligations.ResetMeetsTheInvariant := by
  obtain ⟨hencN, -, hstate, hrd, hcnt, hcause, hinfo⟩ := resetStateHoldsTheResetValues
  exact ⟨fun _ => hencN, (decInv_empty_iff hstate).mpr ⟨hrd, hcnt, hcause, hinfo, rfl⟩⟩

end Sys2Proof.Machine
end

section
/-! PROOFS. The ports (spec 20): `Take` (R54, R57), and outputs that only grow (R53, R55). -/

namespace Sys2Proof.Machine

/-- A T9 word with bit 8 clear is its byte (R90). -/
theorem toNat_eq_of_readT9 {w : BitVec 9} {b : Byte} (h : readT9 w = some b) : w.toNat = b.toNat := by
  rw [readT9] at h
  split at h
  · cases h
  · rename_i h8
    have hlt : w.toNat < 2 ^ 8 := BitVec.toNat_lt_of_msb_false (by simpa [BitVec.msb_eq_getLsbD_last] using h8)
    cases h
    simpa using (Nat.mod_eq_of_lt hlt).symm

/-- Settles O56: both cases of `Take` are those of its law, and the byte is the word's own number. -/
theorem endOfTheSourceIsPermanent : Obligations.EndOfTheSourceIsPermanent := by
  intro ws
  refine ⟨takeWord_end, fun hmore => ?_⟩
  obtain ⟨hend, -⟩ | ⟨w, rest, b, hws, -, hread, htake⟩ := takeWord_cases ws
  · exact absurd (hend.symm.trans hmore) nofun
  · exact ⟨b, rest, htake, w, hws, toNat_eq_of_readT9 hread⟩

/-- Settles O45: `ENC`'s token only grows `enc_out`, a pull and its `Take`s only grow `dec_out`, and every other turn
leaves both as they were. -/
theorem outputsOnlyGrow : Obligations.OutputsOnlyGrow := by
  intro s t h
  obtain ⟨ts, rfl, -⟩ | ⟨ts, w, ws, -, -, h⟩ | ⟨ts, -, rfl⟩ | ⟨ts, -, -, rfl⟩ | ⟨ts, -, h⟩ | ⟨ts, -, -, h⟩ |
    ⟨ts, -, -, -, h⟩ | ⟨ts, -, -, -, rfl⟩ := step_cases h
  · exact ⟨List.prefix_rfl, List.prefix_rfl⟩
  · obtain ⟨-, frame, grows⟩ := encToken_frame h
    exact ⟨grows, by rw [frame]⟩
  · exact ⟨List.prefix_rfl, List.prefix_rfl⟩
  · exact ⟨List.prefix_rfl, List.prefix_rfl⟩
  · obtain ⟨frame, grows, -⟩ := stepTake_frame h
    exact ⟨by rw [frame], grows⟩
  · obtain ⟨frame, ⟨r, hr⟩, -⟩ := decPull_frame h
    exact ⟨by rw [frame], hr ▸ List.prefix_append ..⟩
  · obtain ⟨frame, r, hr⟩ := answerPull_frame h
    exact ⟨by rw [frame], hr ▸ List.prefix_append ..⟩
  · exact ⟨List.prefix_rfl, List.prefix_rfl⟩

end Sys2Proof.Machine
end

section
/-! PROOFS. The ports (spec 20): what each turn fetches and runs (R52, R54, R55, R83). -/

namespace Sys2Proof.Machine

/-! ### A word of a format decodes by its format's own decoder -/

theorem decodeWord_t17 (w : BitVec 17) : decodeWord .t17 w.toNat = .instr (decodeT17 w) := by
  simp [decodeWord, formatWidth, w.isLt]

theorem decodeWord_header (b : Byte) : decodeWord .header b.toNat = .instr (decodeHeader b) := by
  simp [decodeWord, formatWidth, b.isLt]

theorem decodeWord_data (b : Byte) : decodeWord .data b.toNat = .instr (decodeData b) := by
  simp [decodeWord, formatWidth, b.isLt]

/-! ### Turns -/

variable {s : State} {ts : List Turn}

/-- A token on `enc_in` is offered to `ENC` in the turn `enc`. -/
theorem step_enc {w : BitVec 17} {ws : List (BitVec 17)} (hturn : s.turns = .enc :: ts) (hin : s.encIn = w :: ws) :
    step s = exec (decodeT17 w) { s with turns := ts, encIn := ws } := by
  simp [step, runTurn, stepEnc, hturn, hin]

theorem step_pull (hturn : s.turns = .pull :: ts) (hidle : s.refill = .idle) :
    step s = exec .decPull { s with turns := ts } := by
  simp [step, runTurn, hturn, hidle]

theorem step_pullByToken (hturn : s.turns = .pullByToken :: ts) (hidle : s.refill = .idle) :
    step s = stepBeginPull { s with turns := ts } := by
  simp [step, runTurn, hturn, hidle]

/-- A turn of `DEC` goes on with the pull in progress. -/
theorem step_dec (hturn : s.turns = .dec :: ts) (hbusy : s.refill ≠ .idle) :
    step s = stepTake { s with turns := ts } := by
  simp [step, runTurn, hturn, hbusy]

/-- With a pull in progress, no turn and a further request both go on with it, and the request stays (R61, R269). -/
theorem step_waiting (hbusy : s.refill ≠ .idle)
    (hturn : s.turns = [] ∨ s.turns = .pull :: ts ∨ s.turns = .pullByToken :: ts) : step s = stepTake s := by
  obtain hturn | hturn | hturn := hturn <;> simp [step, runTurn, hturn, hbusy]

/-- A byte taken from `dec_in` is run as the operation its position makes of it. -/
theorem stepTake_byte {b : Byte} {ws : List (BitVec 9)} (htake : takeWord s.decIn = (some b, ws)) :
    stepTake s = exec (byteAtPosition s.refill b) { s with decIn := ws } := by
  rw [stepTake, htake]

/-- An `End` on `dec_in` is not removed, and ends the refill. -/
theorem stepTake_end (hend : answersEnd s.decIn = true) : stepTake s = endTaken s := by
  rw [stepTake, takeWord_end hend]

/-- The next byte of a pull in progress, taken in a turn of `DEC`. -/
theorem step_dec_byte {b : Byte} {ws : List (BitVec 9)} (hturn : s.turns = .dec :: ts) (hbusy : s.refill ≠ .idle)
    (hin : s.decIn = t9Word (.byte b) :: ws) :
    step s = exec (byteAtPosition s.refill b) { s with turns := ts, decIn := ws } := by
  rw [step_dec hturn hbusy]
  exact stepTake_byte (by simp [hin])

/-- An `End` for a pull in progress, in a turn of `DEC`. -/
theorem step_dec_end (hturn : s.turns = .dec :: ts) (hbusy : s.refill ≠ .idle) (hend : answersEnd s.decIn = true) :
    step s = endTaken { s with turns := ts } := by
  rw [step_dec hturn hbusy]
  exact stepTake_end hend

/-- Settles O58: each turn's fetch, and the decoder of the word's format. -/
theorem stepRunsTheFetchedOperation : Obligations.StepRunsTheFetchedOperation := by
  refine fun s ts => ⟨fun w ws i hturn hin hword => ?_, step_pull, fun b ws i hturn hr hin hword => ?_,
    fun h vs b ws i hturn hr hin hword => ?_⟩
  · cases (decodeWord_t17 w).symm.trans hword
    exact step_enc hturn hin
  · cases (decodeWord_header b).symm.trans hword
    rw [step_dec_byte hturn (by simp [hr]) hin, hr, byteAtPosition]
  · cases (decodeWord_data b).symm.trans hword
    rw [step_dec_byte hturn (by simp [hr]) hin, hr, byteAtPosition]

end Sys2Proof.Machine
end

section
/-! PROOFS. The ports (spec 20): a pull carried out token by token (R56, R61, R187, R192, R193). -/

namespace Sys2Proof.Machine

variable {s t : State} {ts : List Turn}

/-! ### A request -/

theorem stepBeginPull_empty (hd : s.decState = .empty) : stepBeginPull s = .next { s with refill := .header } :=
  if_pos hd

theorem stepBeginPull_not_empty (hd : s.decState ≠ .empty) : stepBeginPull s = exec .decPull s :=
  if_neg hd

/-! ### A byte -/

/-- The operation a byte stands for takes nothing: the `Take` is the step's (R54). -/
theorem byteAtPosition_keeps_decIn {r : Refill} {b : Byte} (h : exec (byteAtPosition r b) s = .next t) :
    t.decIn = s.decIn := by
  have header (h : exec (decodeHeader b) s = .next t) : t.decIn = s.decIn := by
    rw [headerInstr_exec] at h
    obtain ⟨-, frame, -⟩ := headerTaken_frame h
    rw [frame]
  cases r with
  | idle => exact header h
  | header => exact header h
  | data =>
    rw [byteAtPosition, dataInstr_exec] at h
    obtain ⟨-, frame, -⟩ := dataTaken_frame h
    rw [frame]

/-- Where `dec_in` does not answer `End`, a step of the pull takes exactly its next word. -/
theorem stepTake_takes_next_word (hmore : answersEnd s.decIn = false) (h : stepTake s = .next t) :
    ∃ w, s.decIn = w :: t.decIn := by
  obtain ⟨hend, -⟩ | ⟨w, rest, b, hws, -, -, htake⟩ := takeWord_cases s.decIn
  · exact absurd (hend.symm.trans hmore) nofun
  · rw [stepTake_byte htake] at h
    exact ⟨w, by rw [byteAtPosition_keeps_decIn h, hws]⟩

/-! ### An `End` -/

/-- An `End` takes nothing, and after it no pull is in progress. -/
theorem endTaken_decIn_refill (h : endTaken s = .next t) : t.decIn = s.decIn ∧ t.refill = .idle := by
  cases hr : s.refill with
  | idle =>
    rw [endTaken, hr] at h
    cases h
    exact ⟨rfl, hr⟩
  | header =>
    rw [endTaken, hr] at h
    rw [(answerPull_frame h).1]
    exact ⟨rfl, rfl⟩
  | data hb vs =>
    rw [endTaken, hr] at h
    rw [(answerPull_frame h).1, closeBlock_frame]
    exact ⟨rfl, rfl⟩

/-- An `End` before the first data byte is exhaustion (R192, R193). -/
theorem endTaken_before_data (h : s.refill = .header ∨ ∃ hb, s.refill = .data hb []) :
    endTaken s = .next
      { s with refill := .idle, decState := .exhausted, decOut := s.decOut ++ [.exhausted] } := by
  obtain h | ⟨hb, h⟩ := h
  · rw [endTaken, h]
    exact answerPull_exhausted rfl
  · rw [endTaken, h]
    exact answerPull_exhausted rfl

/-- The first answer from a block of more than one sample delivers `SB[0]`, and `dec_rd` is 1 after it (R188). -/
theorem answerPull_first (hd : s.decState = .buffered) (hrd : s.decRd = 0) (hcnt : 1 < s.decCnt.val) :
    answerPull s = .next { s with decOut := s.decOut ++ [.sample s.sb[0]], decRd := 1 } := by
  have hrd0 : s.decRd.val = 0 := congrArg Fin.val hrd
  obtain ⟨hle, -⟩ | ⟨hlast, -⟩ | ⟨-, e⟩ := deliver_cases s
  · rw [hrd0] at hle; omega
  · rw [hrd0] at hlast; omega
  · rw [answerPull_buffered hd, e]
    simp [hrd]

/-- An `End` after one to seven data bytes with every value in `i16` buffers the values taken and delivers the first
(R187, R192). -/
theorem endTaken_short_block {hb : Byte} {vs : List Int} (hr : s.refill = .data hb vs) (h2 : 2 ≤ vs.length)
    (h14 : vs.length ≤ 14) (hvs : ∀ v ∈ vs, -32768 ≤ v ∧ v ≤ 32767) :
    endTaken s = .next
      { s with
        refill := .idle, sb := storeFrom 0 vs s.sb, decCnt := Fin.ofNat 17 vs.length, decRd := 1,
        decState := .buffered, decOut := s.decOut ++ [.sample (storeFrom 0 vs s.sb)[0]] } := by
  have hne : vs ≠ [] := List.ne_nil_of_length_pos (by omega)
  have hcnt : (Fin.ofNat 17 vs.length).val = vs.length := Nat.mod_eq_of_lt (by omega)
  rw [endTaken, hr]
  dsimp only
  rw [closeBlock_buffered _ hne (firstOverflow_none.mpr hvs)]
  exact answerPull_first rfl rfl (by rw [hcnt]; omega)

/-- Settles O59: a request begins the pull or waits, and each step of the pull is the run of its next byte or of an
`End`, by what is due. -/
theorem tokenPullsTakeOneTokenAStep : Obligations.TokenPullsTakeOneTokenAStep := by
  refine fun s ts => ⟨fun hturn hidle hd => ?_, fun hturn hidle hd => ?_, fun t hturn hbusy h => ?_,
    fun hturn hr hend => ?_, fun hb vs hturn hr h2 h14 hvs hend => ?_, fun hbusy hturn => ?_⟩
  · rw [step_pullByToken hturn hidle]
    exact stepBeginPull_empty hd
  · rw [step_pullByToken hturn hidle]
    exact stepBeginPull_not_empty hd
  · rw [step_dec hturn hbusy] at h
    refine ⟨by rw [(stepTake_frame h).1], fun hend => ?_,
      fun hmore => stepTake_takes_next_word (s := { s with turns := ts }) hmore h⟩
    rw [stepTake_end (s := { s with turns := ts }) hend] at h
    exact endTaken_decIn_refill (s := { s with turns := ts }) h
  · have hbusy : s.refill ≠ .idle := by obtain hr | ⟨hb, hr⟩ := hr <;> simp [hr]
    rw [step_dec_end hturn hbusy hend]
    exact endTaken_before_data hr
  · rw [step_dec_end hturn (by simp [hr]) hend]
    exact ⟨_, endTaken_short_block hr h2 h14 hvs, rfl, fun j hj => by simp [storeFrom_getElem]⟩
  · rw [step_waiting hbusy hturn, step_dec (s := { s with turns := .dec :: s.turns }) rfl hbusy]

end Sys2Proof.Machine
end

section
/-! PROOFS. The ports (spec 20): the operations of `ENC` and a pull commute (R20, R63). -/

namespace Sys2Proof.Machine

/-- `s` with the encoder's fields of `d`, its output with them (R20, R22 to R24, R53). -/
def State.withEnc (s d : State) : State :=
  { s with fb := d.fb, encN := d.encN, encDone := d.encDone, encOut := d.encOut }

@[simp] theorem withEnc_decState (s d : State) : (s.withEnc d).decState = s.decState := rfl
@[simp] theorem withEnc_decIn (s d : State) : (s.withEnc d).decIn = s.decIn := rfl

/-- What follows an operation follows each branch of its test. -/
theorem andThen_ite (c : Prop) [Decidable c] (a b : Answer) (f : State → Answer) :
    andThen (if c then a else b) f = if c then andThen a f else andThen b f :=
  apply_ite (andThen · f) c a b

/-! ### An operation of `ENC` reads and writes the encoder's fields only -/

theorem execEncPush_withEnc (x : Sample) (d s : State) :
    execEncPush x (d.withEnc s) = andThen (execEncPush x s) fun t => .next (d.withEnc t) := by
  rw [execEncPush, execEncPush, andThen_ite, andThen_ite]
  rfl

theorem execEncEnd_withEnc (w : BitVec 16) (d s : State) :
    execEncEnd w (d.withEnc s) = andThen (execEncEnd w s) fun t => .next (d.withEnc t) := by
  rw [execEncEnd, execEncEnd, andThen_ite, andThen_ite]
  rfl

/-! ### A pull neither reads nor writes them -/

theorem closeBlock_withEnc (h : Byte) (vs : List Int) (s d : State) :
    closeBlock h vs (s.withEnc d) = (closeBlock h vs s).withEnc d := by
  obtain ⟨rfl, e⟩ | ⟨-, j, hover, e⟩ | ⟨hne, hin, e⟩ := closeBlock_cases h vs s <;> rw [e]
  · rfl
  · exact closeBlock_overflow _ hover
  · exact closeBlock_buffered _ hne hin

theorem refillBlock_withEnc (s d : State) : refillBlock (s.withEnc d) = (refillBlock s).withEnc d := by
  rw [refillBlock, refillBlock, withEnc_decIn]
  rcases takeWord s.decIn with ⟨_ | h, ws⟩
  · rfl
  · dsimp only
    split
    · rfl
    · exact closeBlock_withEnc h _ { s with decIn := (takeBytes Config.dataMax ws).2 } d

theorem deliver_withEnc (s d : State) : deliver (s.withEnc d) = andThen (deliver s) fun t => .next (t.withEnc d) := by
  rw [deliver, deliver, andThen_ite, andThen_ite]
  rfl

theorem answerPull_withEnc (s d : State) :
    answerPull (s.withEnc d) = andThen (answerPull s) fun t => .next (t.withEnc d) := by
  cases hd : s.decState with
  | empty => simp [answerPull, hd, andThen]
  | buffered =>
    rw [answerPull_buffered hd, answerPull_buffered (by exact hd)]
    exact deliver_withEnc s d
  | exhausted =>
    rw [answerPull_exhausted hd, answerPull_exhausted (by exact hd)]
    rfl
  | faulted =>
    rw [answerPull_faulted hd, answerPull_faulted (by exact hd)]
    rfl

theorem execDecPull_withEnc (s d : State) :
    execDecPull (s.withEnc d) = andThen (execDecPull s) fun t => .next (t.withEnc d) := by
  rw [execDecPull, execDecPull, andThen_ite, andThen_ite, ← answerPull_withEnc, ← answerPull_withEnc,
    ← refillBlock_withEnc]
  rfl

/-! ### The two orders -/

/-- An operation of `ENC` runs the same in any state that holds the encoder's fields. -/
theorem encOperation_withEnc {e : Instr} (he : (∃ x, e = .encPush x) ∨ ∃ w, e = .encEnd w) {s t : State} (d : State)
    (h : exec e s = .next t) : exec e (d.withEnc s) = .next (d.withEnc t) := by
  obtain ⟨x, rfl⟩ | ⟨w, rfl⟩ := he
  · exact (execEncPush_withEnc x d s).trans (congrArg (andThen · _) h)
  · exact (execEncEnd_withEnc w d s).trans (congrArg (andThen · _) h)

theorem encOperation_frame {e : Instr} (he : (∃ x, e = .encPush x) ∨ ∃ w, e = .encEnd w) {s t : State}
    (h : exec e s = .next t) : s.withEnc t = t :=
  (unitsLeaveEachOtherAlone.1 e s t (he.imp_right .inl) h).symm

/-- A pull runs the same whatever the encoder's fields hold. -/
theorem decPull_withEnc {s t : State} (d : State) (h : exec .decPull s = .next t) :
    exec .decPull (s.withEnc d) = .next (t.withEnc d) :=
  (execDecPull_withEnc s d).trans (congrArg (andThen · _) h)

theorem decPull_keeps_enc {s t : State} (h : exec .decPull s = .next t) : t.withEnc s = t := by
  rw [unitsLeaveEachOtherAlone.2 .decPull s t (.inr (.inl rfl)) h]
  rfl

/-- Settles O48: the state between the two is `u` with the encoder's fields of `s` where the pull comes first, and `s`
with those of `u` where the operation of `ENC` does. -/
theorem encoderAndDecoderCommute : Obligations.EncoderAndDecoderCommute := by
  intro e s u he
  constructor
  · intro t henc hpull
    have hs : t.withEnc s = s := by rw [← encOperation_frame he henc]; rfl
    refine ⟨u.withEnc s, ?_, ?_⟩
    · have h := decPull_withEnc s hpull
      rwa [hs] at h
    · have h := encOperation_withEnc he u henc
      rwa [decPull_keeps_enc hpull] at h
  · intro v hpull henc
    have hs : s.withEnc v = s := by rw [← decPull_keeps_enc hpull]; rfl
    refine ⟨s.withEnc u, ?_, ?_⟩
    · have h := encOperation_withEnc he s henc
      rwa [hs] at h
    · have h := decPull_withEnc u hpull
      rwa [encOperation_frame he henc] at h

end Sys2Proof.Machine
end

section
/-! PROOFS. The encoding (spec 30): the words of each format and the operations they select (R82, R83, R89, R91, R92). -/

namespace Sys2Proof.Machine

/-! ### The word of an operation that a format's decoder gives is the word read -/

/-- Bit 16 of a T17 word is set from `2^16` on (R89). -/
theorem t17_bit16 (w : BitVec 17) : w.getLsbD 16 = decide (2 ^ 16 ≤ w.toNat) :=
  (BitVec.msb_eq_getLsbD_last w).symm.trans (BitVec.msb_eq_decide w)

theorem encode_decodeT17 (w : BitVec 17) : encode (decodeT17 w) = some (.t17, w.toNat) := by
  have hlow : (w.extractLsb' 0 16).toNat = w.toNat % 2 ^ 16 := by simp
  have hw := w.isLt
  simp only [decodeT17, t17_bit16, decide_eq_true_iff]
  split <;> (rw [encode, hlow]; congr 2; omega)

theorem encode_decodeHeader (b : Byte) : encode (decodeHeader b) = some (.header, b.toNat) := by
  have hb : b.toNat = (hiNib b).toNat * 16 + (loNib b).toNat := by rw [← joinNibs_toNat, joinNibs_hi_lo]
  have hhi := (hiNib b).isLt
  rw [decodeHeader]
  split
  case h_16 =>
    -- The high nibble is none of 0 to 14.
    simp only [imp_false] at *
    rw [encode]; congr 2; omega
  all_goals rw [encode]; congr 2; omega

theorem encode_decodeData (b : Byte) : encode (decodeData b) = some (.data, b.toNat) := by
  rw [decodeData, encode, ← joinNibs_toNat, joinNibs_hi_lo]

/-! ### The words of the formats -/

/-- The words that select an operation: each word of T17 and each byte at either position, by the decoder of its format,
and the zero-width request. -/
inductive WordOf : Format → Nat → Instr → Prop where
  | t17 (w : BitVec 17) : WordOf .t17 w.toNat (decodeT17 w)
  | header (b : Byte) : WordOf .header b.toNat (decodeHeader b)
  | data (b : Byte) : WordOf .data b.toNat (decodeData b)
  | q0 : WordOf .q0 0 .decPull

theorem WordOf.decodeWord_eq {f : Format} {n : Nat} {i : Instr} (h : WordOf f n i) : decodeWord f n = .instr i := by
  cases h with
  | t17 w => exact decodeWord_t17 w
  | header b => exact decodeWord_header b
  | data b => exact decodeWord_data b
  | q0 => rfl

theorem WordOf.encode_eq {f : Format} {n : Nat} {i : Instr} (h : WordOf f n i) : encode i = some (f, n) := by
  cases h with
  | t17 w => exact encode_decodeT17 w
  | header b => exact encode_decodeHeader b
  | data b => exact encode_decodeData b
  | q0 => rfl

/-- Every word that fits its format selects an operation (R92). -/
theorem exists_wordOf {f : Format} {n : Nat} (h : n < 2 ^ formatWidth f) : ∃ i, WordOf f n i := by
  cases f with
  | t17 => exact ⟨_, BitVec.toNat_ofNatLT n h ▸ WordOf.t17 (.ofNatLT n h)⟩
  | header => exact ⟨_, BitVec.toNat_ofNatLT n h ▸ WordOf.header (.ofNatLT n h)⟩
  | data => exact ⟨_, BitVec.toNat_ofNatLT n h ▸ WordOf.data (.ofNatLT n h)⟩
  | q0 =>
    obtain rfl : n = 0 := Nat.lt_one_iff.mp h
    exact ⟨_, .q0⟩

theorem decodeWord_tooWide {f : Format} {n : Nat} (h : 2 ^ formatWidth f ≤ n) : decodeWord f n = .reject (.tooWide f) :=
  if_neg h.not_gt

theorem decodeWord_eq_instr_iff {f : Format} {n : Nat} {i : Instr} : decodeWord f n = .instr i ↔ WordOf f n i := by
  refine ⟨fun h => ?_, WordOf.decodeWord_eq⟩
  by_cases hn : n < 2 ^ formatWidth f
  · obtain ⟨j, hj⟩ := exists_wordOf hn
    cases hj.decodeWord_eq.symm.trans h
    exact hj
  · cases (decodeWord_tooWide (Nat.le_of_not_lt hn)).symm.trans h

theorem decodeT17_zero_append (x : Sample) : decodeT17 (0#1 ++ x) = .encPush x := by
  rw [decodeT17, BitVec.getLsbD_append, BitVec.extractLsb'_append_eq_right]
  rfl

theorem decodeT17_one_append (x : BitVec 16) : decodeT17 (1#1 ++ x) = .encEnd x := by
  rw [decodeT17, BitVec.getLsbD_append, BitVec.extractLsb'_append_eq_right]
  rfl

/-- Each operation that bits select is the decoding of a word of a format. -/
theorem exists_wordOf_of_encode {i : Instr} {f : Format} {n : Nat} (h : encode i = some (f, n)) :
    ∃ g m, WordOf g m i := by
  cases opKind i with
  | value hcode => cases hcode.symm.trans h
  | emit => cases h
  | refill => cases h
  | encPush x => exact ⟨_, _, decodeT17_zero_append x ▸ WordOf.t17 _⟩
  | encEnd x => exact ⟨_, _, decodeT17_one_append x ▸ WordOf.t17 _⟩
  | decPull => exact ⟨_, _, .q0⟩
  | header b => exact ⟨_, _, .header b⟩
  | data b => exact ⟨_, _, .data b⟩

theorem encode_eq_some_iff {i : Instr} {f : Format} {n : Nat} : encode i = some (f, n) ↔ WordOf f n i := by
  refine ⟨fun h => ?_, WordOf.encode_eq⟩
  obtain ⟨g, m, hi⟩ := exists_wordOf_of_encode h
  cases hi.encode_eq.symm.trans h
  exact hi

/-- Settles O53: both sides say that the word is one of the format's and selects the operation. -/
theorem decodeAndEncodeAgree : Obligations.DecodeAndEncodeAgree :=
  ⟨fun _ _ _ h => decodeWord_eq_instr_iff.mpr (encode_eq_some_iff.mp h),
    fun _ _ _ h => encode_eq_some_iff.mpr (decodeWord_eq_instr_iff.mp h)⟩

/-- Settles O57: each of the words is the one that `encode` gives its operation. -/
theorem writtenOutWordsDecode : Obligations.WrittenOutWordsDecode :=
  have decodes (i : Instr) {f : Format} {n : Nat} (h : encode i = some (f, n)) : decodeWord f n = .instr i :=
    decodeAndEncodeAgree.1 i f n h
  ⟨decodes (.encPush 5#16) rfl, decodes (.encPush (-2#16)) rfl, decodes (.encEnd 0#16) rfl, decodes (.hdrS5 0xA#4) rfl,
    decodes (.hdrS15 0#4) rfl, decodes (.data 1#4 0xE#4) rfl, decodes .decPull rfl⟩

end Sys2Proof.Machine
end

section
/-! PROOFS. The encoding (spec 30): the rows of the operation table that a word selects (R92). -/

namespace Sys2Proof.Machine

/-- Words that agree in the bits a format's rows look at select the same rows. -/
theorem selectedRows_congr {f : Format} {mask n m : Nat} (hrows : ∀ r ∈ selectableRows, r.format = f → r.mask = mask)
    (h : n &&& mask = m &&& mask) : selectedRows f n = selectedRows f m := by
  rw [selectedRows, selectedRows]
  congr 1
  refine List.filter_congr fun r hr => decide_eq_decide.mpr (and_congr_right fun hf => ?_)
  rw [hrows r hr hf, h]

/-- Bit 16 alone selects the row of a T17 word (R89). -/
theorem selectedRows_t17 (w : BitVec 17) : selectedRows .t17 w.toNat = [mnemonicOf (decodeT17 w)] := by
  have hmask : w.toNat &&& 0x10000 = (w.getLsbD 16).toNat * 0x10000 := Nat.and_two_pow w.toNat 16
  rw [decodeT17]
  cases hbit : w.getLsbD 16 <;> rw [hbit] at hmask
  · exact selectedRows_congr (m := 0) (by decide) hmask
  · exact selectedRows_congr (m := 0x10000) (by decide) hmask

/-- The high nibble alone selects the row of a header (R82). -/
theorem selectedRows_header_high (k low : Nib) :
    selectedRows .header (joinNibs k low).toNat = selectedRows .header (joinNibs k 0#4).toNat := by
  have hmask (l : Nib) : (joinNibs k l).toNat &&& 0xF0 = (joinNibs (k &&& 0xF#4) (l &&& 0#4)).toNat := by
    rw [joinNibs, joinNibs, ← BitVec.and_append, BitVec.toNat_and]
    rfl
  refine selectedRows_congr (mask := 0xF0) (by decide) ?_
  rw [hmask, hmask, BitVec.and_zero, BitVec.and_zero]

theorem mnemonicOf_decodeHeader_high (k low : Nib) :
    mnemonicOf (decodeHeader (joinNibs k low)) = mnemonicOf (decodeHeader (joinNibs k 0#4)) := by
  rw [decodeHeader, decodeHeader, hiNib_joinNibs, hiNib_joinNibs]
  split <;> rfl

/-- The sixteen header rows, one for each high nibble. -/
theorem selectedRows_header_rows (k : Nib) :
    selectedRows .header (joinNibs k 0#4).toNat = [mnemonicOf (decodeHeader (joinNibs k 0#4))] := by
  revert k
  decide

theorem selectedRows_header (b : Byte) : selectedRows .header b.toNat = [mnemonicOf (decodeHeader b)] := by
  rw [← joinNibs_hi_lo b, selectedRows_header_high, mnemonicOf_decodeHeader_high]
  exact selectedRows_header_rows (hiNib b)

/-- The row `DATA` has an empty mask. -/
theorem selectedRows_data (n : Nat) : selectedRows .data n = ["DATA"] :=
  selectedRows_congr (mask := 0) (m := 0) (by decide) n.and_zero

theorem WordOf.selectedRows_eq {f : Format} {n : Nat} {i : Instr} (h : WordOf f n i) :
    selectedRows f n = [mnemonicOf i] := by
  cases h with
  | t17 w => exact selectedRows_t17 w
  | header b => exact selectedRows_header b
  | data b => exact selectedRows_data b.toNat
  | q0 => decide

/-- Settles O54: a word that fits selects an operation, whose row is the only one it meets. -/
theorem tableRowsSelectWhatIsDecoded : Obligations.TableRowsSelectWhatIsDecoded := by
  refine fun f w => ⟨fun hfits => ?_, decodeWord_tooWide⟩
  obtain ⟨i, hi⟩ := exists_wordOf hfits
  exact ⟨i, hi.decodeWord_eq, hi.selectedRows_eq⟩

end Sys2Proof.Machine
end

section
/-! PROOFS. The encoding (spec 30): what a byte does at its position (R82, R83, R88, R185, R187). -/

namespace Sys2Proof.Machine

variable {s : State}

/-! ### A header byte -/

theorem headerTaken_legal_joinNibs {k : Nib} (low : Nib) (hr : s.refill = .header) (hk : reservedShift k.toNat = false) :
    headerTaken (joinNibs k low) s = .next { s with refill := .data (k ++ low) [] } :=
  headerTaken_legal hr (by rw [shiftOf, hiNib_joinNibs, hk])

theorem headerTaken_out_of_position (b : Byte) (hr : s.refill ≠ .header) : headerTaken b s = .refused .bytePosition := by
  cases h : s.refill with
  | header => exact absurd h hr
  | idle => rw [headerTaken, h]
  | data => rw [headerTaken, h]

/-- Settles O35: each of the fourteen rows is the header byte of its shift, and none of these is reserved. -/
theorem legalHeaderOpensABlock : Obligations.LegalHeaderOpensABlock := by
  intro low s hr
  have opens (k : Nib) (hk : reservedShift k.toNat = false) :
      headerTaken (joinNibs k low) s = .next { s with refill := .data (k ++ low) [] } :=
    headerTaken_legal_joinNibs low hr hk
  exact ⟨opens 1#4 rfl, opens 2#4 rfl, opens 3#4 rfl, opens 4#4 rfl, opens 5#4 rfl, opens 6#4 rfl, opens 7#4 rfl,
    opens 8#4 rfl, opens 9#4 rfl, opens 10#4 rfl, opens 11#4 rfl, opens 12#4 rfl, opens 13#4 rfl, opens 14#4 rfl⟩

/-! ### A data byte -/

theorem dataTaken_out_of_position (b : Byte) (hr : s.refill = .idle ∨ s.refill = .header) :
    dataTaken b s = .refused .bytePosition := by
  obtain h | h := hr <;> rw [dataTaken, h]

/-- Settles O38: the two kinds of bytes, each in the refills that do not wait for it. -/
theorem bytesOutOfPositionAreRefused : Obligations.BytesOutOfPositionAreRefused := by
  refine fun b s => ⟨fun hr => ?_, fun hr => ?_⟩
  · rw [headerInstr_exec, headerTaken_out_of_position b hr]
  · rw [dataInstr_exec, dataTaken_out_of_position b hr]

variable {h : Byte} {vs : List Int}

/-- The values of the block once a data byte with the halves `hi` and `lo` has joined it (R185). -/
def withDataByte (h : Byte) (vs : List Int) (hi lo : Nib) : List Int :=
  vs ++ [recon hi (h.toNat / 16), recon lo (h.toNat / 16)]

theorem withDataByte_length (hi lo : Nib) : (withDataByte h vs hi lo).length = vs.length + 2 := by
  simp [withDataByte]

theorem exec_data (hi lo : Nib) (hr : s.refill = .data h vs) :
    exec (.data hi lo) s =
      if 16 ≤ vs.length + 2 then answerPull (closeBlock h (withDataByte h vs hi lo) { s with refill := .idle })
      else .next { s with refill := .data h (withDataByte h vs hi lo) } := by
  change dataTaken (joinNibs hi lo) s = _
  rw [dataTaken_eq hr, unpack, hiNib_joinNibs, loNib_joinNibs, shiftOf_eq]
  rfl

/-- A full block with every value in `i16` is buffered, and the pull delivers its first sample (R187, R188). -/
theorem answerPull_closeBlock_full (hlen : vs.length = 16) (hvs : ∀ v ∈ vs, -32768 ≤ v ∧ v ≤ 32767) :
    answerPull (closeBlock h vs s) = .next
      { s with
        sb := storeFrom 0 vs s.sb, decCnt := 16, decRd := 1, decState := .buffered,
        decOut := s.decOut ++ [.sample (storeFrom 0 vs s.sb)[0]] } := by
  have hne : vs ≠ [] := List.ne_nil_of_length_pos (by omega)
  rw [closeBlock_buffered s hne (firstOverflow_none.mpr hvs), hlen]
  exact answerPull_first rfl rfl (show 1 < (Fin.ofNat 17 16).val by decide)

theorem exec_data_before_eighth {hi lo : Nib} (hr : s.refill = .data h vs) (hlt : vs.length < 14) :
    exec (.data hi lo) s = .next { s with refill := .data h (withDataByte h vs hi lo) } := by
  rw [exec_data hi lo hr, if_neg (by omega)]

theorem exec_data_eighth {hi lo : Nib} (hr : s.refill = .data h vs) (h14 : vs.length = 14)
    (hvs : ∀ v ∈ withDataByte h vs hi lo, -32768 ≤ v ∧ v ≤ 32767) :
    exec (.data hi lo) s = .next
      { s with
        refill := .idle, sb := storeFrom 0 (withDataByte h vs hi lo) s.sb, decCnt := 16, decRd := 1,
        decState := .buffered,
        decOut := s.decOut ++ [.sample (storeFrom 0 (withDataByte h vs hi lo) s.sb)[0]] } := by
  have hlen : (withDataByte h vs hi lo).length = 16 := by rw [withDataByte_length, h14]
  rw [exec_data hi lo hr, if_pos (by omega), answerPull_closeBlock_full hlen hvs]

/-- Settles O36: seven data bytes leave room for another, and the eighth fills the block. -/
theorem dataByteJoinsTheBlock : Obligations.DataByteJoinsTheBlock := by
  refine fun hi lo h vs s hr => ⟨exec_data_before_eighth hr, fun h14 hvs => ?_⟩
  refine ⟨_, exec_data_eighth hr h14 hvs, rfl, rfl, fun j hj => ?_⟩
  have hj' : j < (withDataByte h vs hi lo).length := by rw [withDataByte_length]; omega
  exact ⟨_, List.getElem?_eq_getElem hj', storeFrom_zero_getElem s.sb hj hj'⟩

end Sys2Proof.Machine
end

section
/-! PROOFS. The encoding (spec 30): the formats of the tokens, T9, Q0 and T18 (R90, R91). -/

namespace Sys2Proof.Machine

theorem t9Word_byte_toNat (b : Byte) : (t9Word (.byte b)).toNat = b.toNat :=
  toNat_eq_of_readT9 (readT9_byte b)

/-- Bit 8 of a T9 word is set from 256 on (R90). -/
theorem t9_bit8 (w : BitVec 9) : w.getLsbD 8 = decide (256 ≤ w.toNat) :=
  (BitVec.msb_eq_getLsbD_last w).symm.trans (BitVec.msb_eq_decide w)

theorem readT9_end {w : BitVec 9} (h : 256 ≤ w.toNat) : readT9 w = none := by
  rw [readT9, t9_bit8, decide_eq_true h, if_pos rfl]

theorem exists_byte_of_readT9 {w : BitVec 9} (h : w.toNat < 256) : ∃ b, readT9 w = some b ∧ b.toNat = w.toNat := by
  have hread : readT9 w = some (w.extractLsb' 0 8) := by
    rw [readT9, t9_bit8, decide_eq_false h.not_ge, if_neg Bool.false_ne_true]
  exact ⟨_, hread, (toNat_eq_of_readT9 hread).symm⟩

/-- The number of two fields side by side, the first in the more significant bits (R11). -/
theorem toNat_append_eq {n m : Nat} (x : BitVec n) (y : BitVec m) : (x ++ y).toNat = x.toNat * 2 ^ m + y.toNat := by
  rw [BitVec.toNat_append, ← Nat.shiftLeft_add_eq_or_of_lt y.isLt, Nat.shiftLeft_eq]

theorem t18Word_sample_toNat (s : Sample) : (t18Word (.sample s)).toNat = s.toNat := by
  rw [t18Word, toNat_append_eq]
  simp

theorem t18Word_fault_toNat (c : DecCause) (info : BitVec 12) :
    (t18Word (.fault c info)).toNat = 0x20000 + (causeCode c).toNat * 0x4000 + info.toNat := by
  rw [t18Word, toNat_append_eq, toNat_append_eq, toNat_append_eq]
  rw [BitVec.toNat_ofNat, BitVec.toNat_ofNat]
  omega

theorem t18Word_lt (r : Response) : (t18Word r).toNat < 0x30000 := by
  cases r with
  | sample s => rw [t18Word_sample_toNat]; have := s.isLt; omega
  | exhausted => decide
  | fault c info =>
    have hc := (causeCode c).isLt
    have hinfo := info.isLt
    rw [t18Word_fault_toNat]
    omega

/-- Settles O55: T9 by its bit 8, the numbers of the three kinds of T18, and Q0's one word. -/
theorem tokenFormats : Obligations.TokenFormats :=
  ⟨fun b => ⟨readT9_byte b, t9Word_byte_toNat b⟩, rfl, fun _ => ⟨exists_byte_of_readT9, readT9_end⟩,
    t18Word_sample_toNat, rfl, t18Word_fault_toNat, t18Word_lt, rfl, WordOf.q0.decodeWord_eq⟩

end Sys2Proof.Machine
end

section
/-! PROOFS. The encoding (spec 30): well-formed byte streams (R93, R190, R228). -/

namespace Sys2Proof.Machine

/-- A property of lists that holds of `[]`, and of a list when it holds past its first `n` entries, holds of every list:
the frames of a sample stream, or the blocks of a byte stream, one after another. -/
theorem chunk_induction {α : Type} {P : List α → Prop} {n : Nat} (hn : 0 < n) (nil : P [])
    (chunk : ∀ xs, xs ≠ [] → P (xs.drop n) → P xs) (xs : List α) : P xs := by
  by_cases h : xs = []
  · exact h ▸ nil
  · have hpos := List.length_pos_iff.mpr h
    have hdrop : (xs.drop n).length < xs.length := by rw [List.length_drop]; omega
    exact chunk xs h (chunk_induction hn nil chunk (xs.drop n))
termination_by xs.length

/-! ### A well-formed stream is a sequence of well-formed blocks -/

/-- The number of blocks allowed does not matter once it covers the bytes. -/
theorem streamOkUpTo_enough {n m : Nat} {bs : List Byte} (hn : bs.length ≤ n) (hm : bs.length ≤ m) :
    streamOkUpTo n bs = streamOkUpTo m bs := by
  induction n generalizing bs m with
  | zero =>
    obtain rfl := List.eq_nil_of_length_eq_zero (Nat.le_zero.mp hn)
    rw [streamOkUpTo, streamOkUpTo]
  | succ n ih =>
    cases bs with
    | nil => rw [streamOkUpTo, streamOkUpTo]
    | cons b bs =>
      rw [List.length_cons] at hn hm
      obtain ⟨m, rfl⟩ := Nat.exists_eq_succ_of_ne_zero (Nat.ne_zero_of_lt hm)
      have hdrop : (bs.drop Config.dataMax).length ≤ bs.length := (List.drop_suffix _ bs).length_le
      rw [streamOkUpTo, streamOkUpTo, ih (m := m) (by omega) (by omega)]

theorem wellFormedStream_nil : wellFormedStream [] = true := rfl

/-- R93's own equation. -/
theorem wellFormedStream_cons (h : Byte) (rest : List Byte) :
    wellFormedStream (h :: rest) = (blockOk h (rest.take 8) && wellFormedStream (rest.drop 8)) := by
  rw [wellFormedStream, List.length_cons, streamOkUpTo, wellFormedStream,
    streamOkUpTo_enough (List.drop_suffix 8 rest).length_le le_rfl]

theorem blockOk_iff (h : Byte) (ds : List Byte) : blockOk h ds = true ↔
    ds ≠ [] ∧ loNib h = 0#4 ∧ (1 ≤ shiftOf h ∧ shiftOf h ≤ 14) ∧
    (shiftOf h = 14 → ∀ b ∈ ds, (-4 ≤ sext4 (hiNib b) ∧ sext4 (hiNib b) ≤ 3) ∧
      -4 ≤ sext4 (loNib b) ∧ sext4 (loNib b) ≤ 3) := by
  simp [blockOk, and_assoc, Decidable.imp_iff_not_or]

/-! ### What the encoder makes is well formed -/

/-- The block of a frame: `SELECT` never answers 14, so that no nibble is restricted (R155). -/
theorem blockOk_encodeFrame {f : List Sample} (hf : f ≠ []) :
    blockOk (hdr (select f)) (packSeq (nibblesOf f (select f))) = true := by
  obtain ⟨h1, h13⟩ := select_bounds hf
  have hlen := packSeq_length (nibblesOf f (select f))
  have hpos := List.length_pos_iff.mpr hf
  rw [nibblesOf, List.length_map] at hlen
  rw [blockOk_iff, shiftOf_hdr (by omega)]
  exact ⟨List.ne_nil_of_length_pos (by rw [nibblesOf]; omega), loNib_hdr _, by omega, fun h14 => absurd h14 (by omega)⟩

theorem wellFormedStream_encodeFrame_append {f : List Sample} {bs : List Byte} (hf : f ≠ []) (hlen : f.length ≤ 16)
    (hfull : f.length = 16 ∨ bs = []) (hbs : wellFormedStream bs = true) :
    wellFormedStream (encodeFrame f ++ bs) = true := by
  have hds : (packSeq (nibblesOf f (select f))).length = (f.length + 1) / 2 := by
    rw [packSeq_length, nibblesOf, List.length_map]
  rw [encodeFrame, List.cons_append, wellFormedStream_cons]
  obtain h16 | rfl := hfull
  · rw [List.take_left' (by omega), List.drop_left' (by omega), blockOk_encodeFrame hf, hbs, Bool.and_self]
  · rw [List.append_nil, List.take_of_length_le (by omega), List.drop_of_length_le (by omega), blockOk_encodeFrame hf,
      wellFormedStream_nil, Bool.and_self]

theorem wellFormedStream_encodeStream (xs : List Sample) : wellFormedStream (encodeStream xs) = true := by
  induction xs using chunk_induction (n := 16) (by decide) with
  | nil => rfl
  | chunk xs hne ih =>
    rw [encodeStream_cons hne]
    refine wellFormedStream_encodeFrame_append (by simpa using hne) (List.length_take_le 16 xs) ?_ ih
    by_cases h16 : 16 ≤ xs.length
    · exact .inl (List.length_take_of_le h16)
    · exact .inr (by rw [List.drop_of_length_le (by omega), encodeStream_nil])

/-! ### A well-formed stream decodes without a fault -/

/-- At shift 14 a nibble from -4 to 3 stays in `i16` (R93, R183). -/
theorem recon_14_bounds {n : Nib} (h : -4 ≤ sext4 n ∧ sext4 n ≤ 3) : -32768 ≤ recon n 14 ∧ recon n 14 ≤ 32767 := by
  rw [recon]
  omega

theorem unpackAll_14_inI16 {ds : List Byte}
    (h : ∀ b ∈ ds, (-4 ≤ sext4 (hiNib b) ∧ sext4 (hiNib b) ≤ 3) ∧ -4 ≤ sext4 (loNib b) ∧ sext4 (loNib b) ≤ 3) :
    ∀ v ∈ unpackAll 14 ds, -32768 ≤ v ∧ v ≤ 32767 := by
  induction ds with
  | nil => nofun
  | cons b ds ih =>
    obtain ⟨⟨hhi, hlo⟩, hds⟩ := List.forall_mem_cons.mp h
    exact List.forall_mem_cons.mpr ⟨recon_14_bounds hhi, List.forall_mem_cons.mpr ⟨recon_14_bounds hlo, ih hds⟩⟩

theorem unpackAll_inI16_of_blockOk {h : Byte} {ds : List Byte} (hok : blockOk h ds = true) :
    ∀ v ∈ unpackAll (shiftOf h) ds, -32768 ≤ v ∧ v ≤ 32767 := by
  obtain ⟨-, -, ⟨h1, h14⟩, hnibs⟩ := (blockOk_iff h ds).mp hok
  by_cases htop : shiftOf h = 14
  · rw [htop]
    exact unpackAll_14_inI16 (hnibs htop)
  · exact unpackAll_inI16 h1 (by omega) ds

/-- A well-formed block decodes to its values, and decoding goes on behind it. -/
theorem decodeStream_of_blockOk {h : Byte} {rest : List Byte} (hok : blockOk h (rest.take 8) = true) :
    decodeStream (h :: rest) =
      ((unpackAll (shiftOf h) (rest.take 8)).map toSample ++ (decodeStream (rest.drop 8)).1,
        (decodeStream (rest.drop 8)).2) := by
  obtain ⟨-, -, ⟨h1, h14⟩, -⟩ := (blockOk_iff _ _).mp hok
  have hlegal : reservedShift (shiftOf h) = false := (reservedShift_false_iff _).mpr (by omega)
  rw [decodeStream_cons, hlegal, firstOverflow_none.mpr (unpackAll_inI16_of_blockOk hok)]
  rfl

/-- Two samples for each data byte, of which a stream of `n` bytes has all but its `⌈n / 9⌉` headers. -/
theorem decodeStream_of_wellFormed {bs : List Byte} (hok : wellFormedStream bs = true) :
    (decodeStream bs).2 = .exhausted ∧ (decodeStream bs).1.length = 2 * (bs.length - (bs.length + 8) / 9) := by
  induction bs using chunk_induction (n := 9) (by decide) with
  | nil => exact ⟨rfl, rfl⟩
  | chunk bs hne ih =>
    obtain ⟨h, rest, rfl⟩ := List.exists_cons_of_ne_nil hne
    rw [wellFormedStream_cons, Bool.and_eq_true] at hok
    obtain ⟨hblock, hrest⟩ := hok
    obtain ⟨hend, hlen⟩ := ih hrest
    rw [List.drop_succ_cons] at hend hlen
    rw [decodeStream_of_blockOk hblock]
    refine ⟨hend, ?_⟩
    rw [List.length_append, hlen, List.length_map, unpackAll_length, List.length_take, List.length_drop, List.length_cons]
    omega

/-- Settles O31: frame by frame what the encoder makes is well formed, and block by block a well-formed stream decodes. -/
theorem wellFormedStreamsDecodeWithoutFault : Obligations.WellFormedStreamsDecodeWithoutFault := by
  refine ⟨fun xs s => ⟨_, rfl, wellFormedStream_encodeStream xs⟩, fun bs s hok => ?_⟩
  obtain ⟨hend, hlen⟩ := decodeStream_of_wellFormed hok
  refine ⟨(decodeStream bs).1, ?_, hlen⟩
  rw [← hend]
  rfl

end Sys2Proof.Machine
end

section
/-! PROOFS. The selector (spec 40): the magnitude view and the needed exponent of a sample (R110, R111, R113, R114). -/

namespace Sys2Proof.Machine

/-! ### The magnitude view -/

theorem exec_mag16 (x : Sample) (s : State) : exec (.mag16 x) s = .next { s with result := .u16 (mag16 x) } := rfl

theorem mag16_bit15 (x : Sample) : (mag16 x).getLsbD 15 = false :=
  Nat.testBit_lt_two_pow (mag16_lt x)

theorem one_le_clz16_mag16 (x : Sample) : 1 ≤ clz16 (mag16 x) :=
  (le_clz16_iff (mag16 x) (by decide)).mpr (mag16_lt x)

/-- The magnitude view is below `n` just for the `2n` samples around zero, the negative ones shifted by one. -/
theorem mag16_lt_iff (x : Sample) (n : Nat) : (mag16 x).toNat < n ↔ -(n : Int) ≤ x.toInt ∧ x.toInt < n := by
  obtain h | h := lt_or_ge x.toInt 0
  · have hm : ((mag16 x).toNat : Int) = -x.toInt - 1 := (mag16_neg h).2
    omega
  · have hm : ((mag16 x).toNat : Int) = x.toInt := (mag16_nonneg h).2
    omega

/-- Settles O1: each sign has its own law for `MAG16`, and the view is below `2^15` for both. -/
theorem mag16IsTheMagnitudeView : Obligations.Mag16IsTheMagnitudeView := fun x s =>
  ⟨mag16 x, exec_mag16 x s, mag16_nonneg, mag16_neg, Nat.le_of_lt_succ (mag16_lt x), mag16_bit15 x,
    one_le_clz16_mag16 x⟩

/-! ### The needed exponent -/

theorem exec_needed (x : Sample) (s : State) : exec (.needed x) s = .next { s with result := .num (needed x) } := rfl

theorem needed_eq (x : Sample) : needed x = 14 - min (clz16 (mag16 x)) 13 := rfl

/-- Settles O3: the subtraction from 14 never truncates, as the clamped count is at most 13. -/
theorem neededIsTheClampedCount : Obligations.NeededIsTheClampedCount := by
  refine fun x s => ⟨mag16 x, needed x, exec_mag16 x s, exec_needed x s, ?_⟩
  rw [needed_eq]
  omega

/-- `NEEDED` by comparison of the sample with powers of two. -/
theorem needed_le_iff_toInt (x : Sample) {k : Nat} (hk : 1 ≤ k) (hk' : k ≤ 13) :
    needed x ≤ k ↔ -(2 : Int) ^ (k + 2) ≤ x.toInt ∧ x.toInt < 2 ^ (k + 2) := by
  rw [needed_le_iff x hk hk', mag16_lt_iff]
  push_cast
  rfl

theorem needed_eq_one_iff (x : Sample) : needed x = 1 ↔ -8 ≤ x.toInt ∧ x.toInt ≤ 7 := by
  have hle := needed_le_iff_toInt x (k := 1) le_rfl (by decide)
  have hpos := (needed_bounds x).1
  omega

/-- The samples of exponent `k` are those that `k` admits and `k - 1` does not. -/
theorem needed_eq_iff (x : Sample) {k : Nat} (hk : 2 ≤ k) (hk' : k ≤ 13) :
    needed x = k ↔ ((2 : Int) ^ (k + 1) ≤ x.toInt ∧ x.toInt ≤ 2 ^ (k + 2) - 1) ∨
      (-(2 : Int) ^ (k + 2) ≤ x.toInt ∧ x.toInt ≤ -(2 : Int) ^ (k + 1) - 1) := by
  obtain ⟨j, rfl⟩ := Nat.exists_eq_add_of_le' (Nat.one_le_of_lt hk)
  have hle := needed_le_iff_toInt x (k := j + 1) (by omega) hk'
  have hlt := needed_le_iff_toInt x (k := j) (by omega) (by omega)
  have hpos : (0 : Int) < 2 ^ j := by positivity
  simp only [pow_succ] at hle hlt ⊢
  omega

/-- Settles O5, by the samples that each exponent admits. -/
theorem neededByRangeOfTheSample : Obligations.NeededByRangeOfTheSample := fun x s =>
  ⟨needed x, exec_needed x s, needed_eq_one_iff x, fun _ => needed_eq_iff x⟩

/-- The exponent 1 is needed by 4, and an exponent `k` from 2 on by the first sample of its range in R114. -/
theorem needed_twoPow {k : Nat} (hk : 1 ≤ k) (hk' : k ≤ 13) : needed (BitVec.twoPow 16 (k + 1)) = k := by
  have hval : (BitVec.twoPow 16 (k + 1)).toInt = 2 ^ (k + 1) := by
    rw [BitVec.toInt_twoPow, if_neg (by omega), if_neg (by omega)]
  obtain rfl | hk2 := Nat.eq_or_lt_of_le hk
  · rfl
  · rw [needed_eq_iff _ hk2 hk', hval, pow_succ _ (k + 1)]
    have hpos : (0 : Int) < 2 ^ (k + 1) := by positivity
    omega

/-- Settles O4: a power of two for each exponent. -/
theorem neededRangeIsExact : Obligations.NeededRangeIsExact := by
  refine fun s => ⟨fun x => ⟨needed x, exec_needed x s, needed_bounds x⟩, fun v h1 h13 => ⟨BitVec.twoPow 16 (v + 1), ?_⟩⟩
  rw [exec_needed, needed_twoPow h1 h13]

end Sys2Proof.Machine
end

section
/-! PROOFS. The selector (spec 40): the mode of a frame's needed exponents, by the value first to reach it (R112). -/

namespace Sys2Proof.Machine

/-- In `vs`, no value occurs more often than `v`, and `v` reaches its full count at index `i`, where every other value
is still below it (R112). -/
structure FirstModeAt (vs : List Nat) (v i : Nat) : Prop where
  at_index : vs[i]? = some v
  reached : (vs.take (i + 1)).count v = vs.count v
  others_below : ∀ u, u ≠ v → (vs.take (i + 1)).count u < vs.count v
  is_mode : ∀ u, vs.count u ≤ vs.count v

/-- A value whose count rises above every other count by its last occurrence is the mode, and reached it there. -/
theorem FirstModeAt.of_new_value {vs : List Nat} {v : Nat} (hmax : ∀ u, vs.count u < vs.count v + 1) :
    FirstModeAt (vs ++ [v]) v vs.length := by
  have htake : (vs ++ [v]).take (vs.length + 1) = vs ++ [v] := List.take_of_length_le (by simp)
  have hself : (vs ++ [v]).count v = vs.count v + 1 := by simp
  have hother (u : Nat) (hu : u ≠ v) : (vs ++ [v]).count u < (vs ++ [v]).count v := by
    rw [hself, List.count_append, List.count_singleton, if_neg (by simpa using hu.symm)]
    exact hmax u
  refine ⟨by simp, by rw [htake], fun u hu => by rw [htake]; exact hother u hu, fun u => ?_⟩
  obtain rfl | hu := eq_or_ne u v
  · exact le_rfl
  · exact (hother u hu).le

/-- One more value whose count does not rise above the mode's leaves the mode, and the index that reached it. -/
theorem FirstModeAt.append_value {vs : List Nat} {v i w : Nat} (h : FirstModeAt vs v i)
    (hle : vs.count w + 1 ≤ vs.count v) : FirstModeAt (vs ++ [w]) v i := by
  obtain ⟨hat, hreached, hbelow, hmode⟩ := h
  have hi : i < vs.length := (List.getElem?_eq_some_iff.mp hat).1
  have htake : (vs ++ [w]).take (i + 1) = vs.take (i + 1) := List.take_append_of_le_length hi
  have hwv : w ≠ v := by rintro rfl; omega
  have hcount (u : Nat) : (vs ++ [w]).count u = vs.count u + if w = u then 1 else 0 := by
    simp [List.count_append, List.count_singleton]
  have hself : (vs ++ [w]).count v = vs.count v := by rw [hcount, if_neg hwv, Nat.add_zero]
  refine ⟨by rw [List.getElem?_append_left hi, hat], by rw [htake, hself, hreached],
    fun u hu => by rw [htake, hself]; exact hbelow u hu, fun u => ?_⟩
  rw [hself, hcount]
  split
  · next e => exact e ▸ hle
  · exact hmode u

/-- The locals of `SELECT`'s loop after the values `vs`: every count, the greatest count, and the value first to reach
it; before the first value, no count at all. -/
structure Tally.Covers (t : Tally) (vs : List Nat) : Prop where
  counts : ∀ u, t.seen.count u = vs.count u
  bestCnt_eq : t.bestCnt = vs.count t.best
  best_first : vs = [] ∨ ∃ i, FirstModeAt vs t.best i

theorem Tally.Covers.count_le {t : Tally} {vs : List Nat} (h : t.Covers vs) (u : Nat) : vs.count u ≤ t.bestCnt := by
  obtain ⟨-, hbest, rfl | ⟨i, hi⟩⟩ := h
  · exact Nat.zero_le _
  · exact hbest ▸ hi.is_mode u

/-- One turn of the loop, by whether the count of its value rises above the best one (R112). -/
theorem Tally.Covers.next {t : Tally} {vs : List Nat} (h : t.Covers vs) (v : Nat) :
    (tallyNext t v).Covers (vs ++ [v]) := by
  have hmax := h.count_le
  obtain ⟨hcounts, hbest, hfirst⟩ := h
  have hseen (u : Nat) : (v :: t.seen).count u = (vs ++ [v]).count u := by
    rw [List.count_append, List.count_cons, hcounts, List.count_singleton]
  rw [tallyNext, hcounts]
  split
  · next hlt =>
    exact ⟨hseen, by simp, .inr ⟨_, .of_new_value fun u => (hmax u).trans_lt hlt⟩⟩
  · next hge =>
    have hle : vs.count v + 1 ≤ vs.count t.best := by omega
    obtain rfl | ⟨i, hi⟩ := hfirst
    · exact absurd hle (by simp)
    · have hne : v ≠ t.best := by rintro rfl; omega
      exact ⟨hseen, by simp [hne, hbest], .inr ⟨i, hi.append_value hle⟩⟩

theorem Tally.Covers.foldl {t : Tally} {vs : List Nat} (h : t.Covers vs) (ws : List Nat) :
    (ws.foldl tallyNext t).Covers (vs ++ ws) := by
  induction ws generalizing t vs with
  | nil => rwa [List.append_nil]
  | cons w ws ih =>
    rw [List.foldl_cons, List.append_cons]
    exact ih (h.next w)

theorem select_firstModeAt {f : List Sample} (hf : f ≠ []) : ∃ i, FirstModeAt (f.map needed) (select f) i := by
  have hstart : Tally.Covers ⟨[], 0, 0⟩ [] := ⟨fun _ => rfl, rfl, .inl rfl⟩
  exact (hstart.foldl (f.map needed)).best_first.resolve_left (by simpa using hf)

theorem exec_select {f : List Sample} (h1 : 1 ≤ f.length) (h16 : f.length ≤ 16) (s : State) :
    exec (.select f) s = .next { s with result := .num (select f) } := by
  change returnsIf (frameOk f.length) .frameLength (.num (select f)) s = _
  rw [(frameOk_iff _).mpr ⟨h1, h16⟩]
  rfl

/-- Settles O6: the loop's best value is the first to reach the mode, and the needed exponent of a sample of the frame. -/
theorem selectPicksTheFirstToReachTheMode : Obligations.SelectPicksTheFirstToReachTheMode := by
  intro f s h1 h16
  have hf : f ≠ [] := List.ne_nil_of_length_pos h1
  obtain ⟨i, hat, hreached, hbelow, hmode⟩ := select_firstModeAt hf
  have hi : i < (f.map needed).length := (List.getElem?_eq_some_iff.mp hat).1
  obtain ⟨hlo, hhi⟩ := select_bounds hf
  exact ⟨select f, i, exec_select h1 h16 s, by rwa [List.length_map] at hi, hat, hlo, hhi, hreached, hbelow, hmode⟩

end Sys2Proof.Machine
end

section
/-! PROOFS. The selector (spec 40): the refusals outside an operand's domain (R116 (h), R137, U14). -/

namespace Sys2Proof.Machine

theorem returnsIf_outside {ok : Bool} (h : ¬ ok = true) (why : Refusal) (v : Value) (s : State) :
    returnsIf ok why v s = .refused why :=
  if_neg h

/-- Settles O50: each of the operations returns its value behind the check of one operand. -/
theorem operandsOutsideTheirDomainAreRefused : Obligations.OperandsOutsideTheirDomainAreRefused := by
  refine fun s x n b => ⟨rfl, rfl, rfl, fun k hk => ?_, fun q hq => ?_, fun sh hsh => ?_⟩
  · exact returnsIf_outside (by rw [divisorOk_iff]; omega) ..
  · exact returnsIf_outside (by rw [nibbleOk_iff]; omega) ..
  · have hout : ¬ shiftOk sh = true := by rw [shiftOk_iff]; omega
    exact ⟨returnsIf_outside hout .., returnsIf_outside hout .., returnsIf_outside hout .., returnsIf_outside hout ..⟩

end Sys2Proof.Machine
end

section
/-! PROOFS. The quantizer (spec 41): rounding half away from zero (R130, R131). -/

namespace Sys2Proof.Machine

theorem returnsIf_inside {ok : Bool} (h : ok = true) (why : Refusal) (v : Value) (s : State) :
    returnsIf ok why v s = .next { s with result := v } :=
  if_pos h

theorem exec_rhaz (x : Sample) {k : Nat} (hk : k ≤ 13) (s : State) :
    exec (.rhaz x k) s = .next { s with result := .num (rhaz x k) } :=
  returnsIf_inside ((divisorOk_iff k).mpr hk) ..

/-! ### R130 on the integers -/

/-- `v / 2^k` rounded to nearest, a tie away from zero, by R130's own formula `sign(v) * floor(abs(v) / 2^k + 1/2)`; an
odd function on all of `Int`, where `RHAZ` has no operand 32768 (`rhaz_eq_roundHalfAway`). -/
def roundHalfAway (v : Int) (k : Nat) : Int := v.sign * ((2 * v.natAbs + 2 ^ k) / 2 ^ (k + 1) : Nat)

theorem roundHalfAway_neg (v : Int) (k : Nat) : roundHalfAway (-v) k = -roundHalfAway v k := by
  rw [roundHalfAway, roundHalfAway, Int.sign_neg, Int.natAbs_neg, Int.neg_mul]

@[simp] theorem roundHalfAway_zero (k : Nat) : roundHalfAway 0 k = 0 := by simp [roundHalfAway]

theorem roundHalfAway_natCast (m k : Nat) : roundHalfAway m k = ((2 * m + 2 ^ k) / 2 ^ (k + 1) : Nat) := by
  obtain rfl | hm := Nat.eq_zero_or_pos m
  · rw [mul_zero, zero_add, Nat.div_eq_of_lt (Nat.pow_lt_pow_succ (by decide))]
    exact roundHalfAway_zero k
  · rw [roundHalfAway, Int.sign_eq_one_of_pos (by omega), one_mul, Int.natAbs_natCast]

theorem natAbs_roundHalfAway (v : Int) (k : Nat) :
    (roundHalfAway v k).natAbs = (2 * v.natAbs + 2 ^ k) / 2 ^ (k + 1) := by
  obtain ⟨m, rfl | rfl⟩ := v.eq_nat_or_neg
  · rw [roundHalfAway_natCast, Int.natAbs_natCast, Int.natAbs_natCast]
  · rw [roundHalfAway_neg, roundHalfAway_natCast, Int.natAbs_neg, Int.natAbs_neg, Int.natAbs_natCast,
      Int.natAbs_natCast]

/-- An exact quotient is not rounded. -/
theorem roundHalfAway_mul_two_pow (n k : Nat) : roundHalfAway (n * 2 ^ k : Nat) k = n := by
  rw [roundHalfAway_natCast, show 2 * (n * 2 ^ k) + 2 ^ k = 2 ^ k + 2 ^ (k + 1) * n by ring,
    Nat.add_mul_div_left _ _ (Nat.two_pow_pos _), Nat.div_eq_of_lt (Nat.pow_lt_pow_succ (by decide)), zero_add]

theorem roundHalfAway_zero_right (v : Int) : roundHalfAway v 0 = v := by
  have key (m : Nat) : roundHalfAway m 0 = m := by simpa using roundHalfAway_mul_two_pow m 0
  obtain ⟨m, rfl | rfl⟩ := v.eq_nat_or_neg
  · exact key m
  · rw [roundHalfAway_neg, key]

/-- R131's integer form. -/
theorem rhaz_of_pos (x : Sample) {k : Nat} (hk : 1 ≤ k) :
    rhaz x k = if 0 ≤ x.toInt then (((x.toInt.natAbs + 2 ^ (k - 1)) / 2 ^ k : Nat) : Int)
      else -(((x.toInt.natAbs + 2 ^ (k - 1)) / 2 ^ k : Nat) : Int) :=
  if_neg (Nat.ne_zero_of_lt hk)

/-- `RHAZ`, in the integer form of R131, is R130's formula. -/
theorem rhaz_eq_roundHalfAway (x : Sample) (k : Nat) : rhaz x k = roundHalfAway x.toInt k := by
  cases k with
  | zero => rw [roundHalfAway_zero_right, rhaz, if_pos rfl]
  | succ k =>
    have hquot (m : Nat) : (m + 2 ^ k) / 2 ^ (k + 1) = (2 * m + 2 ^ (k + 1)) / 2 ^ (k + 1 + 1) := by
      rw [pow_succ' 2 (k + 1), ← Nat.mul_div_mul_left _ _ Nat.two_pos, mul_add, ← pow_succ']
    rw [rhaz_of_pos x (Nat.le_add_left 1 k), Nat.add_sub_cancel, hquot]
    split
    · next h =>
      rw [← roundHalfAway_natCast, Int.natAbs_of_nonneg h]
    · next h =>
      rw [← roundHalfAway_natCast, Int.ofNat_natAbs_of_nonpos (by omega), roundHalfAway_neg, neg_neg]

/-! ### How far off the rounded quotient is -/

/-- The magnitude of the quotient lies within one half of the exact one, a tie above it. -/
theorem natAbs_roundHalfAway_bounds (v : Int) (k : Nat) :
    2 * ((roundHalfAway v k).natAbs * 2 ^ k) ≤ 2 * v.natAbs + 2 ^ k ∧
      2 * v.natAbs < 2 * ((roundHalfAway v k).natAbs * 2 ^ k) + 2 ^ k := by
  rw [natAbs_roundHalfAway]
  have hle := Nat.div_mul_le_self (2 * v.natAbs + 2 ^ k) (2 ^ (k + 1))
  have hlt := Nat.lt_div_mul_add (a := 2 * v.natAbs + 2 ^ k) (Nat.two_pow_pos (k + 1))
  generalize (2 * v.natAbs + 2 ^ k) / 2 ^ (k + 1) = n at hle hlt ⊢
  rw [pow_succ, ← mul_assoc] at hle hlt
  omega

/-- The error has the same magnitude on both sides of zero. -/
theorem natAbs_roundHalfAway_error (v : Int) (k : Nat) :
    (v - roundHalfAway v k * 2 ^ k).natAbs = ((v.natAbs : Int) - ((roundHalfAway v k).natAbs * 2 ^ k : Nat)).natAbs := by
  have key (m : Nat) : ((m : Int) - roundHalfAway m k * 2 ^ k) = m - ((roundHalfAway m k).natAbs * 2 ^ k : Nat) := by
    rw [roundHalfAway_natCast, Int.natAbs_natCast]
    push_cast
    rfl
  obtain ⟨m, rfl | rfl⟩ := v.eq_nat_or_neg
  · rw [key, Int.natAbs_natCast]
  · rw [roundHalfAway_neg, Int.natAbs_neg, Int.natAbs_neg, Int.natAbs_natCast, ← key,
      show -(m : Int) - -roundHalfAway m k * 2 ^ k = -(m - roundHalfAway m k * 2 ^ k) by ring, Int.natAbs_neg]

theorem roundHalfAway_error_le (v : Int) (k : Nat) : 2 * (v - roundHalfAway v k * 2 ^ k).natAbs ≤ 2 ^ k := by
  have := natAbs_roundHalfAway_bounds v k
  rw [natAbs_roundHalfAway_error]
  omega

/-- The error is one half just where the quotient's magnitude is the exact one and one half: rounded away from zero. -/
theorem roundHalfAway_error_eq_iff (v : Int) (k : Nat) :
    2 * (v - roundHalfAway v k * 2 ^ k).natAbs = 2 ^ k ↔
      2 * ((roundHalfAway v k).natAbs * 2 ^ k) = 2 * v.natAbs + 2 ^ k := by
  have := natAbs_roundHalfAway_bounds v k
  rw [natAbs_roundHalfAway_error]
  omega

theorem natAbs_rhaz_le (x : Sample) (k : Nat) : (rhaz x k).natAbs ≤ 32768 := by
  have hx : x.toInt.natAbs ≤ 32768 := by
    have := BitVec.le_toInt x
    have := BitVec.toInt_lt (x := x)
    omega
  have hpos := Nat.two_pow_pos k
  rw [rhaz_eq_roundHalfAway, natAbs_roundHalfAway, ← Nat.lt_add_one_iff, Nat.div_lt_iff_lt_mul (Nat.two_pow_pos _),
    pow_succ]
  omega

/-- Settles O7: the error bound, and on a tie the magnitude above the exact quotient's. -/
theorem rhazRoundsHalfAwayFromZero : Obligations.RhazRoundsHalfAwayFromZero := by
  refine fun x k s hk => ⟨roundHalfAway x.toInt k, ?_, ?_, roundHalfAway_error_le .., fun htie => ?_, rfl⟩
  · rw [exec_rhaz x hk, rhaz_eq_roundHalfAway]
  · rw [← rhaz_eq_roundHalfAway]
    exact natAbs_rhaz_le x k
  · have heq := (roundHalfAway_error_eq_iff ..).mp htie
    have hpos := Nat.two_pow_pos k
    omega

end Sys2Proof.Machine
end

section
/-! PROOFS. The quantizer (spec 41): the samples each rounded quotient stands for (R131). -/

namespace Sys2Proof.Machine

/-- A positive bound on the rounded quotient is a bound on the value, one half lower. -/
theorem le_roundHalfAway_iff {j : Int} (hj : 1 ≤ j) (v : Int) (k : Nat) :
    j ≤ roundHalfAway v k ↔ (2 * j - 1) * 2 ^ k ≤ 2 * v := by
  have hpos : 0 < (2 * j - 1) * 2 ^ k := mul_pos (by omega) (by positivity)
  obtain ⟨m, rfl | rfl⟩ := v.eq_nat_or_neg
  · lift j to Nat using by omega
    rw [roundHalfAway_natCast, Nat.cast_le, Nat.le_div_iff_mul_le (Nat.two_pow_pos _), pow_succ, ← Nat.cast_le (α := Int)]
    push_cast
    rw [show (2 * (j : Int) - 1) * 2 ^ k = j * (2 ^ k * 2) - 2 ^ k by ring, sub_le_iff_le_add]
  · have hnonneg : 0 ≤ roundHalfAway m k := by
      rw [roundHalfAway_natCast]
      exact Int.natCast_nonneg _
    rw [roundHalfAway_neg]
    omega

/-- A negative bound, one half higher: the function is odd. -/
theorem roundHalfAway_le_iff {j : Int} (hj : j ≤ -1) (v : Int) (k : Nat) :
    roundHalfAway v k ≤ j ↔ 2 * v ≤ (2 * j + 1) * 2 ^ k := by
  have h := le_roundHalfAway_iff (j := -j) (by omega) (-v) k
  rw [roundHalfAway_neg, neg_le_neg_iff] at h
  rw [h, show (2 * -j - 1) * 2 ^ k = -((2 * j + 1) * 2 ^ k) by ring]
  omega

/-- The bounds of the rounded quotient by the half step `2^(k-1)`, as R131 and R135 give them. -/
theorem le_rhaz_iff {j : Int} (hj : 1 ≤ j) (x : Sample) {k : Nat} (hk : 1 ≤ k) :
    j ≤ rhaz x k ↔ (2 * j - 1) * 2 ^ (k - 1) ≤ x.toInt := by
  obtain ⟨k, rfl⟩ := Nat.exists_eq_add_of_le' hk
  rw [rhaz_eq_roundHalfAway, le_roundHalfAway_iff hj, Nat.add_sub_cancel, pow_succ, ← mul_assoc]
  omega

theorem rhaz_le_iff {j : Int} (hj : j ≤ -1) (x : Sample) {k : Nat} (hk : 1 ≤ k) :
    rhaz x k ≤ j ↔ x.toInt ≤ (2 * j + 1) * 2 ^ (k - 1) := by
  obtain ⟨k, rfl⟩ := Nat.exists_eq_add_of_le' hk
  rw [rhaz_eq_roundHalfAway, roundHalfAway_le_iff hj, Nat.add_sub_cancel, pow_succ, ← mul_assoc]
  omega

theorem rhaz_eq_iff_of_pos {j : Int} (hj : 1 ≤ j) (x : Sample) {k : Nat} (hk : 1 ≤ k) :
    rhaz x k = j ↔ (2 * j - 1) * 2 ^ (k - 1) ≤ x.toInt ∧ x.toInt < (2 * j + 1) * 2 ^ (k - 1) := by
  have hnext := le_rhaz_iff (j := j + 1) (by omega) x hk
  rw [show 2 * (j + 1) - 1 = 2 * j + 1 by ring] at hnext
  rw [← le_rhaz_iff hj x hk, ← not_le, ← hnext]
  omega

theorem rhaz_eq_iff_of_neg {j : Int} (hj : j ≤ -1) (x : Sample) {k : Nat} (hk : 1 ≤ k) :
    rhaz x k = j ↔ (2 * j - 1) * 2 ^ (k - 1) < x.toInt ∧ x.toInt ≤ (2 * j + 1) * 2 ^ (k - 1) := by
  have hnext := rhaz_le_iff (j := j - 1) (by omega) x hk
  rw [show 2 * (j - 1) + 1 = 2 * j - 1 by ring] at hnext
  rw [← rhaz_le_iff hj x hk, ← not_le, ← hnext]
  omega

theorem rhaz_eq_zero_iff (x : Sample) {k : Nat} (hk : 1 ≤ k) :
    rhaz x k = 0 ↔ -(2 : Int) ^ (k - 1) < x.toInt ∧ x.toInt < 2 ^ (k - 1) := by
  have hpos := le_rhaz_iff (j := 1) (by decide) x hk
  have hneg := rhaz_le_iff (j := -1) (by decide) x hk
  omega

/-- `RHAZ` is odd, on all samples whose negation is a sample. -/
theorem rhaz_neg {x : Sample} (hx : x ≠ 0x8000#16) (k : Nat) : rhaz (-x) k = -rhaz x k := by
  rw [rhaz_eq_roundHalfAway, rhaz_eq_roundHalfAway, BitVec.toInt_neg_of_ne_intMin hx, roundHalfAway_neg]

/-- The most negative sample is a multiple of every divisor. -/
theorem rhaz_intMin {k : Nat} (hk : k ≤ 13) : rhaz 0x8000#16 k = -((32768 / 2 ^ k : Nat) : Int) := by
  have hdvd : 32768 / 2 ^ k * 2 ^ k = 32768 := Nat.div_mul_cancel (pow_dvd_pow 2 (show k ≤ 15 by omega))
  have hval : (0x8000#16).toInt = -((32768 / 2 ^ k * 2 ^ k : Nat) : Int) := by rw [hdvd]; rfl
  rw [rhaz_eq_roundHalfAway, hval, roundHalfAway_neg, roundHalfAway_mul_two_pow]

/-- Settles O8: each interval lies between two bounds of the quotient. -/
theorem rhazIntervals : Obligations.RhazIntervals := by
  refine fun x s => ⟨exec_rhaz x (Nat.zero_le 13) s, fun k h1 h13 => ⟨rhaz x k, exec_rhaz x h13 s, rhaz_of_pos x h1,
    fun j hj => rhaz_eq_iff_of_pos hj x h1, rhaz_eq_zero_iff x h1, fun j hj => rhaz_eq_iff_of_neg hj x h1,
    fun hx => ?_, ?_⟩⟩
  · rw [exec_rhaz (-x) h13, rhaz_neg hx]
  · rintro rfl
    exact rhaz_intMin h13

end Sys2Proof.Machine
end

section
/-! PROOFS. The quantizer (spec 41): the clamped quotient and its nibble (R132 to R136, R181). -/

namespace Sys2Proof.Machine

theorem exec_quant (x : Sample) {sh : Nat} (h1 : 1 ≤ sh) (h14 : sh ≤ 14) (s : State) :
    exec (.quant x sh) s = .next { s with result := .num (quant x sh) } :=
  returnsIf_inside ((shiftOk_iff sh).mpr ⟨h1, h14⟩) ..

theorem exec_nib4 {q : Int} (h8 : -8 ≤ q) (h7 : q ≤ 7) (s : State) :
    exec (.nib4 q) s = .next { s with result := .nib (nib4 q) } :=
  returnsIf_inside ((nibbleOk_iff q).mpr ⟨h8, h7⟩) ..

theorem exec_sext4 (n : Nib) (s : State) : exec (.sext4 n) s = .next { s with result := .num (sext4 n) } := rfl

/-! ### The clamp -/

theorem quant_eq_seven_iff (x : Sample) (sh : Nat) : quant x sh = 7 ↔ 7 ≤ rhaz x (sh - 1) := by
  rw [quant_eq]; omega

theorem quant_eq_neg_eight_iff (x : Sample) (sh : Nat) : quant x sh = -8 ↔ rhaz x (sh - 1) ≤ -8 := by
  rw [quant_eq]; omega

theorem quant_eq_rhaz {x : Sample} {sh : Nat} (h8 : -8 ≤ rhaz x (sh - 1)) (h7 : rhaz x (sh - 1) ≤ 7) :
    quant x sh = rhaz x (sh - 1) := by
  rw [quant_eq]; omega

theorem quant_eq_zero_iff (x : Sample) (sh : Nat) : quant x sh = 0 ↔ rhaz x (sh - 1) = 0 := by
  rw [quant_eq]; omega

/-- Settles O9, by the three cases of the clamp. -/
theorem quantClampsTheRoundedQuotient : Obligations.QuantClampsTheRoundedQuotient := fun x sh s h1 h14 =>
  have ⟨hlo, hhi⟩ := quant_bounds x sh
  ⟨rhaz x (sh - 1), quant x sh, exec_rhaz x (by omega) s, exec_quant x h1 h14 s, hlo, hhi,
    (quant_eq_seven_iff x sh).mpr, (quant_eq_neg_eight_iff x sh).mpr, quant_eq_rhaz⟩

/-- Settles O10: at shift 1 the quotient is the sample, and from shift 2 on its bounds are those of R131. -/
theorem quantSaturationThresholds : Obligations.QuantSaturationThresholds := by
  refine fun x s => ⟨⟨quant x 1, exec_quant x le_rfl (by decide) s, quant_eq_seven_iff x 1, quant_eq_neg_eight_iff x 1,
    quant_eq_rhaz (sh := 1)⟩, fun sh h2 h14 => ⟨quant x sh, exec_quant x (Nat.le_of_succ_le h2) h14 s, ?_, ?_, ?_⟩⟩
  · exact (quant_eq_seven_iff x sh).trans (le_rhaz_iff (by decide) x (Nat.le_sub_one_of_lt h2))
  · exact (quant_eq_neg_eight_iff x sh).trans (rhaz_le_iff (by decide) x (Nat.le_sub_one_of_lt h2))
  · exact (quant_eq_zero_iff x sh).trans (rhaz_eq_zero_iff x (Nat.le_sub_one_of_lt h2))

/-! ### The nibble's pattern -/

/-- Settles O11: each of the two functions has its two cases, by the sign, and inverts the other. -/
theorem nibblePatternsAreTwosComplement : Obligations.NibblePatternsAreTwosComplement := by
  refine ⟨fun q s h8 h7 => ⟨nib4 q, exec_nib4 h8 h7 s, fun hq => ?_, fun hq => ?_, ?_⟩, fun n s => ?_⟩
  · rw [nib4_toNat h8 h7, if_pos hq]
  · rw [nib4_toNat h8 h7, if_neg (by omega)]
  · rw [exec_sext4, sext4_nib4 h8 h7]
  · obtain ⟨h8, h7⟩ := sext4_bounds n
    refine ⟨sext4 n, exec_sext4 n s, h8, h7, fun hn => if_pos hn, fun hn => if_neg (by omega), ?_⟩
    rw [exec_nib4 h8 h7, nib4_sext4]

end Sys2Proof.Machine
end

section
/-! PROOFS. The quantizer (spec 41): the error of one quantized and reconstructed sample (R138). -/

namespace Sys2Proof.Machine

theorem exec_recon (n : Nib) {sh : Nat} (h1 : 1 ≤ sh) (h14 : sh ≤ 14) (s : State) :
    exec (.recon n sh) s = .next { s with result := .num (recon n sh) } :=
  returnsIf_inside ((shiftOk_iff sh).mpr ⟨h1, h14⟩) ..

theorem sext4_nib4_quant (x : Sample) (sh : Nat) : sext4 (nib4 (quant x sh)) = quant x sh :=
  have ⟨h8, h7⟩ := quant_bounds x sh
  sext4_nib4 h8 h7

theorem recon_nib4_quant (x : Sample) (sh : Nat) : recon (nib4 (quant x sh)) sh = quant x sh * 2 ^ (sh - 1) := by
  rw [recon, sext4_nib4_quant]

/-- R130's ties, by the bits shifted out: `m / 2^k` has the fraction one half. -/
theorem half_tie_iff (m k : Nat) :
    2 ^ (k + 1) ∣ 2 * m + 2 ^ k ↔ 1 ≤ k ∧ m % 2 ^ k = 2 ^ (k - 1) := by
  cases k with
  | zero => omega
  | succ k =>
    have hpos := Nat.two_pow_pos k
    rw [Nat.add_sub_cancel, pow_succ' 2 (k + 1), pow_succ' 2 k, ← mul_add, Nat.mul_dvd_mul_iff_left Nat.two_pos]
    generalize 2 ^ k = h at *
    have hmod : 2 * h ∣ m + h ↔ m + h ≡ h + h [MOD 2 * h] := by
      rw [← Nat.modEq_zero_iff_dvd, ← two_mul, Nat.ModEq, Nat.ModEq, Nat.mod_self, Nat.zero_mod]
    rw [hmod, Nat.ModEq.add_iff_right rfl, Nat.ModEq, Nat.mod_eq_of_lt (show h < 2 * h by omega)]
    exact (and_iff_right (Nat.le_add_left 1 k)).symm

/-- The rounded quotient is off by one half exactly at ties (R138 (a)). -/
theorem roundHalfAway_error_eq_iff_tie (v : Int) (k : Nat) :
    2 * (v - roundHalfAway v k * 2 ^ k).natAbs = 2 ^ k ↔ 1 ≤ k ∧ v.natAbs % 2 ^ k = 2 ^ (k - 1) := by
  rw [roundHalfAway_error_eq_iff, natAbs_roundHalfAway, ← half_tie_iff, Nat.dvd_iff_div_mul_eq, mul_comm 2,
    mul_assoc, ← pow_succ]

/-- Settles O12, by the three places of the quotient: in the nibble's range, above it and below it. -/
theorem quantizationErrorBound : Obligations.QuantizationErrorBound := by
  intro x sh s h1 h14
  refine ⟨rhaz x (sh - 1), quant x sh * 2 ^ (sh - 1), nib4 (quant x sh), exec_rhaz x (by omega) s, ?_, ?_,
    fun h8 h7 => ?_, ?_, fun hq => ?_, fun hq => ?_⟩
  · rw [sext4_nib4_quant, exec_quant x h1 h14]
  · rw [exec_recon _ h1 h14, recon_nib4_quant]
  · have htie := roundHalfAway_error_eq_iff_tie x.toInt (sh - 1)
    rw [quant_eq_rhaz h8 h7, rhaz_eq_roundHalfAway, ← Int.natAbs_neg, neg_sub]
    exact ⟨roundHalfAway_error_le .., htie.trans (and_congr_left' (by omega))⟩
  · rintro rfl h8 h7
    rw [quant_eq_rhaz h8 h7, Nat.sub_self, pow_zero, mul_one]
    rfl
  · rw [(quant_eq_seven_iff x sh).mpr (by omega)]
    rw [rhaz_eq_roundHalfAway, le_roundHalfAway_iff (by decide)] at hq
    omega
  · rw [(quant_eq_neg_eight_iff x sh).mpr (by omega)]
    rw [rhaz_eq_roundHalfAway, roundHalfAway_le_iff (by decide)] at hq
    omega

end Sys2Proof.Machine
end

section
/-! PROOFS. The encoder (spec 42): the header byte, the data byte and pairs of nibbles (R150 to R152). -/

namespace Sys2Proof.Machine

theorem exec_hdr {sh : Nat} (h1 : 1 ≤ sh) (h14 : sh ≤ 14) (s : State) :
    exec (.hdr sh) s = .next { s with result := .byte (hdr sh) } :=
  returnsIf_inside ((shiftOk_iff sh).mpr ⟨h1, h14⟩) ..

theorem exec_pack (a b : Nib) (s : State) : exec (.pack a b) s = .next { s with result := .byte (pack a b) } := rfl

theorem exec_shiftOf (h : Byte) (s : State) : exec (.shiftOf h) s = .next { s with result := .num (shiftOf h) } := rfl

theorem exec_packSeq {ns : List Nib} (h1 : 1 ≤ ns.length) (h16 : ns.length ≤ 16) (s : State) :
    exec (.packSeq ns) s = .next { s with result := .bytes (packSeq ns) } :=
  returnsIf_inside ((frameOk_iff _).mpr ⟨h1, h16⟩) ..

/-- Settles O13: both bytes join two nibbles, and the shift of a header fits its nibble. -/
theorem headerAndDataBytesArePacked : Obligations.HeaderAndDataBytesArePacked := by
  refine ⟨fun sh s h1 h14 => ⟨hdr sh, exec_hdr h1 h14 s, hdr_toNat (by omega), loNib_hdr sh, ?_⟩,
    fun a c s => ⟨pack a c, exec_pack a c s, joinNibs_toNat a c⟩⟩
  rw [exec_shiftOf, shiftOf_hdr (by omega)]

/-! ### The bytes of `PACKSEQ` by index -/

theorem packSeq_getElem? (ns : List Nib) (j : Nat) :
    (packSeq ns)[j]? = (ns[2 * j]?).map fun a => pack a ((ns[2 * j + 1]?).getD Config.padNibble) := by
  induction ns using packSeq.induct generalizing j with
  | case1 => simp [packSeq]
  | case2 a => cases j <;> simp [packSeq, Nat.mul_succ]
  | case3 a b rest ih =>
    cases j with
    | zero => simp [packSeq]
    | succ j => simp [packSeq, ih, Nat.mul_succ]

theorem packSeq_getElem?_eq_some {ns : List Nib} {j : Nat} {b : Byte} (h : (packSeq ns)[j]? = some b) :
    ns[2 * j]? = some (hiNib b) ∧ loNib b = (ns[2 * j + 1]?).getD 0#4 := by
  rw [packSeq_getElem?, Option.map_eq_some_iff] at h
  obtain ⟨a, ha, rfl⟩ := h
  exact ⟨by rw [ha, pack, hiNib_joinNibs], by rw [pack, loNib_joinNibs]⟩

/-- The nibble `i` stands in byte `i / 2`, in its high half for even `i` and in its low half for odd `i`. -/
theorem exists_byte_of_nibble {ns : List Nib} {i : Nat} {n : Nib} (h : ns[i]? = some n) :
    ∃ b, (packSeq ns)[i / 2]? = some b ∧ (if i % 2 = 0 then hiNib b else loNib b) = n := by
  have hi : i < ns.length := (List.getElem?_eq_some_iff.mp h).1
  have hlt : i / 2 < (packSeq ns).length := by rw [packSeq_length]; omega
  have hb := List.getElem?_eq_getElem hlt
  obtain ⟨hhi, hlo⟩ := packSeq_getElem?_eq_some hb
  refine ⟨_, hb, ?_⟩
  split
  · rw [show 2 * (i / 2) = i by omega, h] at hhi
    exact (Option.some.inj hhi).symm
  · rw [hlo, show 2 * (i / 2) + 1 = i by omega, h, Option.getD_some]

/-- An odd number of nibbles ends with a byte whose low half is the pad nibble. -/
theorem packSeq_getLast?_odd {ns : List Nib} (hodd : ns.length % 2 = 1) :
    ∃ b, (packSeq ns).getLast? = some b ∧ loNib b = 0#4 := by
  have hlen := packSeq_length ns
  have hlt : (packSeq ns).length - 1 < (packSeq ns).length := by omega
  have hb := List.getElem?_eq_getElem hlt
  obtain ⟨-, hlo⟩ := packSeq_getElem?_eq_some hb
  have hnone : ns[2 * ((packSeq ns).length - 1) + 1]? = none := List.getElem?_eq_none (by omega)
  exact ⟨_, by rw [List.getLast?_eq_getElem?, hb], by rw [hlo, hnone, Option.getD_none]⟩

/-- Settles O14: the length of `PACKSEQ` and each of its bytes. -/
theorem packSeqPairsInOrder : Obligations.PackSeqPairsInOrder := fun ns s h1 h16 =>
  ⟨packSeq ns, exec_packSeq h1 h16 s, packSeq_length ns, fun _ _ => packSeq_getElem?_eq_some⟩

end Sys2Proof.Machine
end

section
/-! PROOFS. The encoder (spec 42): the block of a frame, and what it decodes to (R153 to R156, R166, R195). -/

namespace Sys2Proof.Machine

theorem exec_encodeFrame {f : List Sample} (h1 : 1 ≤ f.length) (h16 : f.length ≤ 16) (s : State) :
    exec (.encodeFrame f) s = .next { s with result := .bytes (encodeFrame f) } :=
  returnsIf_inside ((frameOk_iff _).mpr ⟨h1, h16⟩) ..

theorem nibblesOf_length (f : List Sample) (sh : Nat) : (nibblesOf f sh).length = f.length :=
  List.length_map ..

theorem packSeq_nibblesOf_length (f : List Sample) (sh : Nat) : (packSeq (nibblesOf f sh)).length = (f.length + 1) / 2 := by
  rw [packSeq_length, nibblesOf_length]

theorem encodeFrame_length (f : List Sample) : (encodeFrame f).length = 1 + (f.length + 1) / 2 := by
  rw [encodeFrame, List.length_cons, packSeq_nibblesOf_length, Nat.add_comm]

/-- Settles O15: the header joins the selected shift and 0, and sample `i` is nibble `i` of the sequence that is packed. -/
theorem encodeFrameLayout : Obligations.EncodeFrameLayout := by
  intro f s h1 h16
  obtain ⟨hlo, hhi⟩ := select_bounds (List.ne_nil_of_length_pos h1)
  refine ⟨select f, hdr (select f), packSeq (nibblesOf f (select f)), exec_select h1 h16 s, exec_encodeFrame h1 h16 s,
    hlo, hhi, hdr_toNat (by omega), packSeq_nibblesOf_length .., fun i x hx => ?_, fun hodd => ?_⟩
  · have hn : (nibblesOf f (select f))[i]? = some (nib4 (quant x (select f))) := by
      rw [nibblesOf, List.getElem?_map, hx, Option.map_some]
    obtain ⟨b, hb, hnib⟩ := exists_byte_of_nibble hn
    exact ⟨b, hb, by rw [hnib, sext4_nib4_quant]⟩
  · exact packSeq_getLast?_odd (by rwa [nibblesOf_length])

/-- A frame's block decodes to its quantized samples times the scale, and to one 0 more for an odd frame. -/
theorem decodeStream_encodeFrame {f : List Sample} (h1 : 1 ≤ f.length) (h16 : f.length ≤ 16) :
    decodeStream (encodeFrame f) =
      (f.map (fun x => toSample (quant x (select f) * 2 ^ (select f - 1))) ++ (if f.length % 2 = 1 then [0#16] else []),
        .exhausted) := by
  have hne : f ≠ [] := List.ne_nil_of_length_pos h1
  have hlen := packSeq_nibblesOf_length f (select f)
  obtain ⟨-, hhi⟩ := select_bounds hne
  have hall : (packSeq (nibblesOf f (select f))).take 8 = packSeq (nibblesOf f (select f)) :=
    List.take_of_length_le (by omega)
  rw [encodeFrame, decodeStream_of_blockOk (by rw [hall]; exact blockOk_encodeFrame hne), hall,
    List.drop_of_length_le (by omega), decodeStream_nil, shiftOf_hdr (by omega), unpackAll_packSeq, nibblesOf_length,
    List.append_nil, List.map_append, nibblesOf, List.map_map, List.map_map]
  congr 2
  · exact List.map_congr_left fun x _ => congrArg toSample (recon_nib4_quant x (select f))
  · split <;> rfl

theorem exec_decode {bs : List Byte} {ys : List Sample} {o : Response} (h : decodeStream bs = (ys, o)) (s : State) :
    exec (.decode bs) s = .next { s with result := .stream ys o } := by
  change Host.Outcome.next (giveResult (.stream (decodeStream bs).1 (decodeStream bs).2) s) = _
  rw [h]
  rfl

/-- Settles O29: the values are in `i16`, as `SELECT` answers at most 13. -/
theorem frameRoundTrip : Obligations.FrameRoundTrip := by
  intro f s h1 h16
  obtain ⟨hlo, hhi⟩ := select_bounds (List.ne_nil_of_length_pos h1)
  refine ⟨select f, encodeFrame f, _, exec_select h1 h16 s, exec_encodeFrame h1 h16 s,
    exec_decode (decodeStream_encodeFrame h1 h16) s, ?_, fun i x y hx hy => ?_,
    fun hodd => ?_⟩
  · rw [List.length_append, List.length_map]
    split
    · rw [List.length_singleton]; omega
    · rw [List.length_nil]; omega
  · obtain ⟨hi, -⟩ := List.getElem?_eq_some_iff.mp hx
    rw [List.getElem?_append_left (by rwa [List.length_map]), List.getElem?_map, hx] at hy
    cases hy
    have ⟨hmin, hmax⟩ := recon_bounds (nib4 (quant x (select f))) hlo hhi
    rw [recon_nib4_quant] at hmin hmax
    exact toSample_toInt hmin hmax
  · rw [if_pos hodd, List.getElem?_append_right (by rw [List.length_map]), List.length_map, Nat.sub_self]
    rfl

end Sys2Proof.Machine
end

section
/-! PROOFS. The encoder (spec 42): the stream function `encode` (R163). -/

namespace Sys2Proof.Machine

theorem exec_encode (xs : List Sample) (s : State) :
    exec (.encode xs) s = .next { s with result := .bytes (encodeStream xs) } := rfl

theorem encodeStream_length (xs : List Sample) : (encodeStream xs).length =
    9 * (xs.length / 16) + (if xs.length % 16 = 0 then 0 else 1 + (xs.length % 16 + 1) / 2) := by
  induction xs using chunk_induction (n := 16) (by decide) with
  | nil => rfl
  | chunk xs hne ih =>
    have hpos := List.length_pos_iff.mpr hne
    rw [encodeStream_cons hne, List.length_append, encodeFrame_length, ih, List.length_take, List.length_drop]
    split <;> split <;> omega

/-- Whole frames are encoded apart from what follows them. -/
theorem encodeStream_append {xs : List Sample} (hwhole : xs.length % 16 = 0) (ys : List Sample) :
    encodeStream (xs ++ ys) = encodeStream xs ++ encodeStream ys := by
  induction xs using chunk_induction (n := 16) (by decide) with
  | nil => rfl
  | chunk xs hne ih =>
    have hpos := List.length_pos_iff.mpr hne
    have h16 : 16 ≤ xs.length := by omega
    rw [encodeStream_cons hne, encodeStream_cons (List.append_ne_nil_of_left_ne_nil hne ys),
      List.take_append_of_le_length h16, List.drop_append_of_le_length h16,
      ih (by rw [List.length_drop]; omega), List.append_assoc]

/-- Settles O16: R163's own equation, and its two consequences. -/
theorem encodeTakesFramesOnTheirOwn : Obligations.EncodeTakesFramesOnTheirOwn := by
  refine fun xs s => ⟨encodeStream xs, exec_encode xs s, fun hnil => hnil ▸ encodeStream_nil, fun hne => ?_,
    encodeStream_length xs, fun ys hwhole => ⟨encodeStream ys, exec_encode ys s, ?_⟩⟩
  · have hpos := List.length_pos_iff.mpr hne
    exact ⟨_, _, encodeStream_cons hne,
      exec_encodeFrame (by rw [List.length_take]; omega) (List.length_take_le 16 xs) s, exec_encode _ s⟩
  · rw [exec_encode, encodeStream_append hwhole]

end Sys2Proof.Machine
end

section
/-! PROOFS. The encoder (spec 42): the port operations and `EMIT` (R158 to R162). -/

namespace Sys2Proof.Machine

variable {s t : State}

/-! ### `EMIT` -/

theorem emitOk_iff (cnt : Nat) (s : State) :
    emitOk cnt s = true ↔ 1 ≤ cnt ∧ cnt = s.encN.val ∨ cnt = 16 ∧ s.encN.val = 15 :=
  decide_eq_true_iff

theorem exec_emit {cnt : Nat} (h : emitOk cnt s = true) : exec (.emit cnt) s =
    .next { s with encOut := s.encOut ++ (encodeFrame (frameOf cnt s)).map .byte } :=
  if_pos h

theorem exec_encodeFrame_frameOf {cnt : Nat} (h1 : 1 ≤ cnt) (h16 : cnt ≤ 16) (s t : State) :
    exec (.encodeFrame (frameOf cnt s)) t = .next { t with result := .bytes (encodeFrame (frameOf cnt s)) } := by
  have hlen := frameOf_length s h16
  exact exec_encodeFrame (by omega) (by omega) t

/-- Settles O17: the precondition holds in the first case and fails in the second, as `enc_n` is at most 15. -/
theorem emitPutsTheBlockOfTheFrame : Obligations.EmitPutsTheBlockOfTheFrame := by
  intro cnt s
  have hlt := s.encN.isLt
  refine ⟨fun h1 hcnt => ⟨_, exec_encodeFrame_frameOf h1 (by omega) s s, exec_emit ?_⟩, fun hcnt => if_neg ?_⟩
  · exact (emitOk_iff cnt s).mpr (by omega)
  · rw [emitOk_iff]; omega

/-! ### `ENC.PUSH` -/

theorem exec_encPush_finished (x : Sample) (h : s.encDone = true) : exec (.encPush x) s = .refused .encoderFinished :=
  if_pos h

theorem exec_encPush_unfinished (x : Sample) (h : s.encDone = false) : exec (.encPush x) s =
    if s.encN.val = 15 then .next { emitBlock 16 (storeFB x s) with encN := 0 }
    else .next { storeFB x s with encN := s.encN + 1 } :=
  if_neg (by simp [h])

/-- The frame with the sample just stored behind its valid entries. -/
theorem frameOf_storeFB (x : Sample) (s : State) :
    frameOf (s.encN.val + 1) (storeFB x s) = frameOf s.encN.val s ++ [x] := by
  have hlt : s.encN.val < s.fb.toList.length := by rw [Vector.length_toList]; exact s.encN.isLt
  rw [frameOf, frameOf, storeFB_fb, Vector.toList_set, List.take_succ_eq_append_getElem (by rwa [List.length_set]),
    List.getElem_set_self, List.take_set_of_le le_rfl]

theorem exec_encPush_below (x : Sample) (h : s.encDone = false) (hn : s.encN.val < 15) : exec (.encPush x) s =
    .next { s with fb := s.fb.set s.encN.val x s.encN.isLt, encN := s.encN + 1 } := by
  rw [exec_encPush_unfinished x h, if_neg (by omega)]
  rfl

theorem exec_encPush_sixteenth (x : Sample) (h : s.encDone = false) (hn : s.encN.val = 15) : exec (.encPush x) s =
    .next { s with
      fb := s.fb.set 15 x, encN := 0, encOut := s.encOut ++ (encodeFrame (frameOf 15 s ++ [x])).map .byte } := by
  have hframe : frameOf 16 (storeFB x s) = frameOf 15 s ++ [x] := by simpa only [hn] using frameOf_storeFB x s
  have hstore : storeFB x s = { s with fb := s.fb.set 15 x } := by simp only [storeFB, hn]
  rw [exec_encPush_unfinished x h, if_pos hn, emitBlock, hframe, hstore]
  rfl

/-- Settles O18, by the three branches of R159. -/
theorem encPushStoresAndEmitsTheSixteenth : Obligations.EncPushStoresAndEmitsTheSixteenth := by
  refine fun x s => ⟨exec_encPush_finished x, exec_encPush_below x, fun hdone hn =>
    ⟨_, ?_, exec_encPush_sixteenth x hdone hn⟩⟩
  have hlen : (frameOf 15 s ++ [x]).length = 16 := by rw [List.length_append, frameOf_length s (by decide)]; rfl
  exact exec_encodeFrame (by omega) hlen.le s

/-! ### `ENC.END` -/

theorem exec_encEnd_finished (w : BitVec 16) (h : s.encDone = true) : exec (.encEnd w) s = .refused .encoderFinished :=
  if_pos h

theorem exec_encEnd_unfinished (w : BitVec 16) (h : s.encDone = false) : exec (.encEnd w) s =
    if 0 < s.encN.val then .next { putTokens [.eos] (emitBlock s.encN.val s) with encN := 0, encDone := true }
    else .next { putTokens [.eos] s with encDone := true } :=
  if_neg (by simp [h])

theorem exec_encEnd_flush (w : BitVec 16) (h : s.encDone = false) (hn : 0 < s.encN.val) : exec (.encEnd w) s =
    .next { s with
      encN := 0, encDone := true,
      encOut := s.encOut ++ (encodeFrame (frameOf s.encN.val s)).map .byte ++ [.eos] } := by
  rw [exec_encEnd_unfinished w h, if_pos hn]
  rfl

theorem exec_encEnd_empty (w : BitVec 16) (h : s.encDone = false) (hn : s.encN = 0) : exec (.encEnd w) s =
    .next { s with encDone := true, encOut := s.encOut ++ [.eos] } := by
  rw [exec_encEnd_unfinished w h, if_neg (by simp [hn])]
  rfl

/-- Settles O19, by the three branches of R160. -/
theorem encEndFlushesAndSignalsTheEnd : Obligations.EncEndFlushesAndSignalsTheEnd := fun w s =>
  ⟨exec_encEnd_finished w,
    fun hdone hn => ⟨_, exec_encodeFrame_frameOf hn s.encN.isLt.le s s, exec_encEnd_flush w hdone hn⟩,
    exec_encEnd_empty w⟩

/-- Settles O33: the turn of `ENC` needs `enc_done = 0`, the turns of `DEC` and its `Take`s leave the encoder's fields
alone, and a reset of `DEC` does too. -/
theorem finishedEncoderIsLeftByResetOnly : Obligations.FinishedEncoderIsLeftByResetOnly := by
  intro s t hdone h
  obtain ⟨ts, rfl, -⟩ | ⟨ts, w, ws, -, -, h⟩ | ⟨ts, hturn, -⟩ | ⟨ts, -, -, rfl⟩ | ⟨ts, -, h⟩ | ⟨ts, -, -, h⟩ |
    ⟨ts, -, -, -, h⟩ | ⟨ts, -, -, -, rfl⟩ := step_cases h
  · exact .inl ⟨hdone, rfl, rfl, rfl⟩
  · obtain ⟨hopen, -⟩ := encToken_frame h
    exact absurd (hdone.symm.trans hopen) nofun
  · exact .inr (by rw [hturn]; rfl)
  · exact .inl ⟨hdone, rfl, rfl, rfl⟩
  · rw [(stepTake_frame h).1]
    exact .inl ⟨hdone, rfl, rfl, rfl⟩
  · rw [(decPull_frame h).1]
    exact .inl ⟨hdone, rfl, rfl, rfl⟩
  · rw [(answerPull_frame h).1]
    exact .inl ⟨hdone, rfl, rfl, rfl⟩
  · exact .inl ⟨hdone, rfl, rfl, rfl⟩

end Sys2Proof.Machine
end

section
/-! PROOFS. The encoder (spec 42): the encoder agrees with the stream function (R164). -/

namespace Sys2Proof.Machine

/-- The encoder, started where `out` had been put, has put the blocks of the whole frames `whole` and holds the samples
`rest` of the next one. -/
structure HasPushed (out : List OutToken) (whole rest : List Sample) (s : State) : Prop where
  unfinished : s.encDone = false
  wholeFrames : whole.length % 16 = 0
  held : frameOf s.encN.val s = rest
  put : s.encOut = out ++ (encodeStream whole).map .byte

variable {out : List OutToken} {whole rest : List Sample} {s : State}

theorem HasPushed.fresh (hn : s.encN = 0) (hdone : s.encDone = false) : HasPushed s.encOut [] [] s where
  unfinished := hdone
  wholeFrames := rfl
  held := by rw [hn]; rfl
  put := (List.append_nil _).symm

theorem HasPushed.length_rest (h : HasPushed out whole rest s) : rest.length = s.encN.val := by
  rw [← h.held, frameOf_length s s.encN.isLt.le]

/-- The sample just pushed joins the samples held, or with fifteen of them makes a whole frame. -/
theorem HasPushed.encPush (h : HasPushed out whole rest s) (x : Sample) : ∃ (t : State) (whole' rest' : List Sample),
    exec (.encPush x) s = .next t ∧ HasPushed out whole' rest' t ∧ whole' ++ rest' = whole ++ rest ++ [x] := by
  have hrest := h.length_rest
  by_cases hn : s.encN.val = 15
  · have hlen : (rest ++ [x]).length = 16 := by rw [List.length_append, hrest, hn]; rfl
    have hblock : encodeStream (rest ++ [x]) = encodeFrame (rest ++ [x]) :=
      encodeStream_short (List.ne_nil_of_length_pos (by omega)) hlen.le
    refine ⟨_, whole ++ (rest ++ [x]), [], exec_encPush_sixteenth x h.unfinished hn, ⟨h.unfinished, ?_, rfl, ?_⟩, by simp⟩
    · rw [List.length_append, hlen, Nat.add_mod_right, h.wholeFrames]
    · rw [encodeStream_append h.wholeFrames, hblock, List.map_append, ← List.append_assoc, ← h.put, ← h.held, hn]
  · have hsucc : (s.encN + 1).val = s.encN.val + 1 := Fin.val_add_one_of_lt' (by omega)
    refine ⟨_, whole, rest ++ [x], exec_encPush_below x h.unfinished (by omega),
      ⟨h.unfinished, h.wholeFrames, ?_, h.put⟩, (List.append_assoc ..).symm⟩
    rw [← h.held, ← frameOf_storeFB, ← hsucc]
    rfl

theorem HasPushed.pushAll (h : HasPushed out whole rest s) (xs : List Sample) : ∃ (t : State) (whole' rest' : List Sample),
    pushAll xs s = .next t ∧ HasPushed out whole' rest' t ∧ whole' ++ rest' = whole ++ rest ++ xs := by
  induction xs generalizing whole rest s with
  | nil => exact ⟨s, whole, rest, rfl, h, (List.append_nil _).symm⟩
  | cons x xs ih =>
    obtain ⟨t, whole', rest', hpush, ht, happ⟩ := h.encPush x
    obtain ⟨u, whole'', rest'', hall, hu, happ'⟩ := ih ht
    refine ⟨u, whole'', rest'', ?_, hu, by rw [happ', happ, List.append_assoc, List.singleton_append]⟩
    rw [Machine.pushAll, hpush]
    exact hall

/-- `ENC.END` puts what is missing of `encode` of all samples, and `End`. -/
theorem HasPushed.encEnd (h : HasPushed out whole rest s) (w : BitVec 16) : ∃ t, exec (.encEnd w) s = .next t ∧
    t.encOut = out ++ (encodeStream (whole ++ rest)).map .byte ++ [.eos] ∧ t.encN = 0 ∧ t.encDone = true := by
  have hrest := h.length_rest
  rw [encodeStream_append h.wholeFrames, List.map_append, ← List.append_assoc, ← h.put]
  by_cases hn : s.encN = 0
  · obtain rfl : rest = [] := List.eq_nil_of_length_eq_zero (by rw [hrest, hn]; rfl)
    exact ⟨_, exec_encEnd_empty w h.unfinished hn, by simp [encodeStream_nil], hn, rfl⟩
  · have hpos : 0 < s.encN.val := Fin.pos_iff_ne_zero.mpr hn
    have hblock : encodeStream rest = encodeFrame rest :=
      encodeStream_short (List.ne_nil_of_length_pos (by omega)) (by omega)
    refine ⟨_, exec_encEnd_flush w h.unfinished hpos, ?_, rfl, rfl⟩
    rw [hblock, h.held]

/-- Settles O21: the samples split at the greatest multiple of 16, as fewer than 16 are held. -/
theorem encoderAgreesWithTheStreamFunction : Obligations.EncoderAgreesWithTheStreamFunction := by
  intro xs w s hn hdone
  obtain ⟨t, whole, rest, hpush, ht, rfl⟩ := (HasPushed.fresh hn hdone).pushAll xs
  obtain ⟨u, hend, hout, hencN, hfinished⟩ := ht.encEnd w
  have hwhole := ht.wholeFrames
  have hrest := ht.length_rest
  have hlen : (whole ++ rest).length = whole.length + rest.length := List.length_append
  have hmul : 16 * ((whole ++ rest).length / 16) = whole.length := by omega
  have hmod : (whole ++ rest).length % 16 = t.encN.val := by omega
  refine ⟨t, u, hpush, ?_, hmod.symm, ht.unfinished, ?_, hend, hout, hencN, hfinished⟩
  · rw [hmul, List.take_left, ht.put]
  · rw [hmul, hmod, List.drop_left]
    exact ht.held

end Sys2Proof.Machine
end

section
/-! PROOFS. The decoder (spec 43): the values of headers and data bytes (R180, R182, R183, R185). -/

namespace Sys2Proof.Machine

theorem hiNib_eq_ofNat (b : Byte) : hiNib b = BitVec.ofNat 4 (b.toNat / 16) := by
  rw [← hiNib_toNat, BitVec.ofNat_toNat, BitVec.setWidth_eq]

theorem loNib_eq_ofNat (b : Byte) : loNib b = BitVec.ofNat 4 (b.toNat % 16) := by
  rw [← loNib_toNat, BitVec.ofNat_toNat, BitVec.setWidth_eq]

theorem exec_unpack (b : Byte) {sh : Nat} (h1 : 1 ≤ sh) (h14 : sh ≤ 14) (s : State) :
    exec (.unpack b sh) s = .next { s with result := .pair (recon (hiNib b) sh) (recon (loNib b) sh) } :=
  returnsIf_inside ((shiftOk_iff sh).mpr ⟨h1, h14⟩) ..

/-- Settles O22: the shift field is the high nibble of the header, and each half of a data byte is one of its nibbles. -/
theorem headerAndDataBytesAreUnpacked : Obligations.HeaderAndDataBytesAreUnpacked := by
  refine ⟨fun h s => ⟨?_, fun low => ?_⟩, fun b sh s h1 h14 => ⟨_, _, exec_unpack b h1 h14 s, ?_, ?_⟩⟩
  · rw [exec_shiftOf, shiftOf_eq]
  · rw [exec_shiftOf, exec_shiftOf, shiftOf, shiftOf, hiNib_joinNibs]
  · rw [← hiNib_eq_ofNat, exec_recon _ h1 h14]
  · rw [← loNib_eq_ofNat, exec_recon _ h1 h14]

theorem recon_14 (n : Nib) : recon n 14 = sext4 n * 8192 := rfl

/-- Settles O23: below shift 14 every value is inside `i16`, and at 14 the value is `8192` times the nibble's. -/
theorem reconIsTheExactProduct : Obligations.ReconIsTheExactProduct := by
  intro n sh s h1 h14
  obtain ⟨hlo, hhi⟩ := sext4_bounds n
  refine ⟨_, _, exec_sext4 n s, exec_recon n h1 h14 s, rfl, ?_⟩
  by_cases htop : sh = 14
  · rw [htop, recon_14]
    omega
  · obtain ⟨hmin, hmax⟩ := recon_bounds n h1 (show sh ≤ 13 by omega)
    omega

end Sys2Proof.Machine
end

section
/-! PROOFS. The decoder (spec 43): the stream function `decode`, by its first block (R190). -/

namespace Sys2Proof.Machine

variable {h : Byte} {rest : List Byte}

theorem reservedShift_shiftOf_eq_true (hsh : h.toNat / 16 = 0 ∨ h.toNat / 16 = 15) : reservedShift (shiftOf h) = true :=
  (reservedShift_iff _).mpr (by rwa [shiftOf_eq])

theorem reservedShift_shiftOf_eq_false (h1 : 1 ≤ h.toNat / 16) (h14 : h.toNat / 16 ≤ 14) :
    reservedShift (shiftOf h) = false :=
  (reservedShift_false_iff _).mpr (by rw [shiftOf_eq]; omega)

theorem decodeStream_reserved (hres : reservedShift (shiftOf h) = true) :
    decodeStream (h :: rest) = ([], .fault .reservedShift (faultInfo 0 h)) := by
  rw [decodeStream_cons, if_pos hres]

theorem decodeStream_overflow {j : Nat} (hlegal : reservedShift (shiftOf h) = false)
    (hover : firstOverflow (unpackAll (shiftOf h) (rest.take 8)) = some j) :
    decodeStream (h :: rest) = ([], .fault .overflow (faultInfo j h)) := by
  rw [decodeStream_cons, hlegal, hover]
  rfl

theorem decodeStream_inI16 (hlegal : reservedShift (shiftOf h) = false)
    (hin : firstOverflow (unpackAll (shiftOf h) (rest.take 8)) = none) :
    decodeStream (h :: rest) =
      ((unpackAll (shiftOf h) (rest.take 8)).map toSample ++ (decodeStream (rest.drop 8)).1,
        (decodeStream (rest.drop 8)).2) := by
  rw [decodeStream_cons, hlegal, hin]
  rfl

/-- Settles O25, by the three branches of R190. -/
theorem decodeTakesBlocksByPosition : Obligations.DecodeTakesBlocksByPosition := by
  refine ⟨exec_decode decodeStream_nil, fun h rest s => ⟨fun hsh => ?_, fun h1 h14 =>
    ⟨fun j v hj hv hlt => ?_, fun hin => ?_⟩⟩⟩
  · exact exec_decode (decodeStream_reserved (reservedShift_shiftOf_eq_true hsh)) s
  · rw [← shiftOf_eq] at hj hlt
    exact exec_decode (decodeStream_overflow (reservedShift_shiftOf_eq_false h1 h14) (firstOverflow_some hj hv hlt)) s
  · rw [← shiftOf_eq] at hin ⊢
    exact ⟨_, _, exec_decode rfl s,
      exec_decode (decodeStream_inI16 (reservedShift_shiftOf_eq_false h1 h14) (firstOverflow_none.mpr hin)) s⟩

end Sys2Proof.Machine
end

section
/-! PROOFS. The decoder (spec 43): the outcomes of `REFILL` (R187, R225). -/

namespace Sys2Proof.Machine

variable {s : State} {h : Byte}

theorem exec_refill (hd : s.decState = .empty) (hidle : s.refill = .idle) : exec .refill s = .next (refillBlock s) :=
  if_pos ⟨hd, hidle⟩

theorem refillBlock_end (hend : answersEnd s.decIn = true) : refillBlock s = { s with decState := .exhausted } := by
  rw [refillBlock, takeWord_end hend]

theorem takeWord_wordsOf (h : Byte) (ds : List Byte) (rest : List (BitVec 9)) :
    takeWord (wordsOf (h :: ds) ++ rest) = (some h, wordsOf ds ++ rest) :=
  takeWord_byte h _

/-- A reserved shift is found before any data byte is taken. -/
theorem refillBlock_reserved {ws : List (BitVec 9)} (htake : takeWord s.decIn = (some h, ws))
    (hres : reservedShift (shiftOf h) = true) :
    refillBlock s = raiseDecFault .reservedShift (faultInfo 0 h) { s with decIn := ws } := by
  rw [refillBlock, htake]
  exact if_pos hres

theorem refillBlock_legal {ws : List (BitVec 9)} (htake : takeWord s.decIn = (some h, ws))
    (hlegal : reservedShift (shiftOf h) = false) :
    refillBlock s =
      closeBlock h (unpackAll (shiftOf h) (takeBytes 8 ws).1) { s with decIn := (takeBytes 8 ws).2 } := by
  rw [refillBlock, htake]
  exact if_neg (by simp [hlegal])

/-- A legal header is followed by the next eight bytes, or by those before an `End`. -/
theorem refillBlock_wordsOf {ds : List Byte} {rest : List (BitVec 9)} (hin : s.decIn = wordsOf (h :: ds) ++ rest)
    (hds : 8 ≤ ds.length ∨ answersEnd rest = true) (hlegal : reservedShift (shiftOf h) = false) :
    refillBlock s =
      closeBlock h (unpackAll (shiftOf h) (ds.take 8)) { s with decIn := wordsOf (ds.drop 8) ++ rest } := by
  rw [refillBlock_legal (hin ▸ takeWord_wordsOf h ds rest) hlegal, takeBytes_wordsOf 8 ds rest hds]

/-- Settles O26: `End`, a reserved shift, and the three ends of a block behind a legal header. -/
theorem refillOutcomesByPriority : Obligations.RefillOutcomesByPriority := by
  intro s hd hidle
  rw [exec_refill hd hidle]
  refine ⟨fun hend => by rw [refillBlock_end hend], fun h ds rest hin hlen hds => ?_⟩
  have legal (h1 : 1 ≤ h.toNat / 16) (h14 : h.toNat / 16 ≤ 14) :
      refillBlock s = closeBlock h (unpackAll (h.toNat / 16) ds) { s with decIn := rest } := by
    rw [refillBlock_wordsOf hin (hds.imp_left Eq.ge) (reservedShift_shiftOf_eq_false h1 h14),
      List.take_of_length_le hlen, List.drop_of_length_le hlen, shiftOf_eq]
    rfl
  refine ⟨fun hsh => ?_, fun h1 h14 hnil => ?_, fun h1 h14 j v hj hv hlt => ?_, fun h1 h14 hne hvs => ?_⟩
  · rw [refillBlock_reserved (hin ▸ takeWord_wordsOf h ds rest) (reservedShift_shiftOf_eq_true hsh)]
    rfl
  · rw [legal h1 h14, hnil, unpackAll, closeBlock_nil]
  · rw [legal h1 h14, closeBlock_overflow _ (firstOverflow_some hj hv hlt)]
    rfl
  · have hlength := unpackAll_length (h.toNat / 16) ds
    have hpos := List.length_pos_iff.mpr hne
    rw [legal h1 h14, closeBlock_buffered _ (List.ne_nil_of_length_pos (by omega)) (firstOverflow_none.mpr hvs), hlength]
    exact ⟨_, rfl, rfl, fun j hj => by simp [storeFrom_getElem]⟩

end Sys2Proof.Machine
end

section
/-! PROOFS. The decoder (spec 43): `DEC.PULL` by the state it finds, and what it takes (R188, R189). -/

namespace Sys2Proof.Machine

variable {s : State}

/-! ### The four states -/

theorem exec_decPull_not_empty (hidle : s.refill = .idle) (hd : s.decState ≠ .empty) :
    exec .decPull s = answerPull s := by
  change execDecPull s = _
  rw [execDecPull_eq hidle, if_neg hd]

theorem exec_decPull_empty (hidle : s.refill = .idle) (hd : s.decState = .empty) :
    exec .decPull s = answerPull (refillBlock s) := by
  change execDecPull s = _
  rw [execDecPull_eq hidle, if_pos hd]

/-- In `EMPTY` a pull is the pull in the state that `REFILL` leaves. -/
theorem exec_decPull_refillBlock (hidle : s.refill = .idle) (hd : s.decState = .empty) :
    exec .decPull (refillBlock s) = exec .decPull s := by
  rw [exec_decPull_empty hidle hd,
    exec_decPull_not_empty ((refillBlock_refill s).trans hidle) (refillBlock_not_empty s)]

theorem exec_decPull_exhausted (hidle : s.refill = .idle) (hd : s.decState = .exhausted) :
    exec .decPull s = .next { s with decOut := s.decOut ++ [.exhausted] } := by
  rw [exec_decPull_not_empty hidle (by simp [hd]), answerPull_exhausted hd]

theorem exec_decPull_faulted (hidle : s.refill = .idle) (hd : s.decState = .faulted) :
    exec .decPull s = .next { s with decOut := s.decOut ++ [.fault s.decCause s.decInfo] } := by
  rw [exec_decPull_not_empty hidle (by simp [hd]), answerPull_faulted hd]

theorem exec_decPull_buffered (hidle : s.refill = .idle) (hd : s.decState = .buffered)
    (hmore : s.decRd.val + 1 < s.decCnt.val) :
    exec .decPull s = .next { s with decOut := s.decOut ++ [.sample s.sb[s.decRd]], decRd := s.decRd + 1 } := by
  rw [exec_decPull_not_empty hidle (by simp [hd]), answerPull_buffered hd]
  obtain ⟨hle, -⟩ | ⟨hlast, -⟩ | ⟨-, e⟩ := deliver_cases s
  · omega
  · omega
  · exact e

theorem exec_decPull_buffered_last (hidle : s.refill = .idle) (hd : s.decState = .buffered)
    (hlast : s.decRd.val + 1 = s.decCnt.val) :
    exec .decPull s = .next
      { s with decOut := s.decOut ++ [.sample s.sb[s.decRd]], decState := .empty, decRd := 0, decCnt := 0 } := by
  rw [exec_decPull_not_empty hidle (by simp [hd]), answerPull_buffered hd]
  obtain ⟨hle, -⟩ | ⟨-, e⟩ | ⟨hmore, -⟩ := deliver_cases s
  · omega
  · exact e
  · omega

/-! ### A pull answers -/

theorem closeBlock_window {h : Byte} {vs : List Int} (hlen : vs.length ≤ 16)
    (hbuf : (closeBlock h vs s).decState = .buffered) :
    (closeBlock h vs s).decRd.val < (closeBlock h vs s).decCnt.val := by
  obtain ⟨-, e⟩ | ⟨-, j, -, e⟩ | ⟨hne, -, e⟩ := closeBlock_cases h vs s <;> rw [e] at hbuf ⊢
  · cases hbuf
  · cases hbuf
  · exact (List.length_pos_iff.mpr hne).trans_eq (Nat.mod_eq_of_lt (show vs.length < 17 by omega)).symm

/-- A block that `REFILL` buffers has an entry to deliver. -/
theorem refillBlock_window (hbuf : (refillBlock s).decState = .buffered) :
    (refillBlock s).decRd.val < (refillBlock s).decCnt.val := by
  obtain ⟨-, e⟩ | ⟨w, ws, h, -, -, ⟨-, e⟩ | ⟨-, e⟩⟩ := refillBlock_cases s <;> rw [e] at hbuf ⊢
  · cases hbuf
  · cases hbuf
  · obtain ⟨-, -, hlen⟩ := takeBytes_suffix 8 ws
    exact closeBlock_window (by rw [unpackAll_length]; omega) hbuf

theorem exec_decPull_answers (hidle : s.refill = .idle)
    (hwindow : s.decState = .buffered → s.decRd.val < s.decCnt.val) :
    ∃ t, exec .decPull s = .next t := by
  by_cases hd : s.decState = .empty
  · obtain ⟨t, -, h, -⟩ := answerPull_total (refillBlock_not_empty s) refillBlock_window
    rw [exec_decPull_empty hidle hd]
    exact ⟨t, h⟩
  · obtain ⟨t, -, h, -⟩ := answerPull_total hd hwindow
    rw [exec_decPull_not_empty hidle hd]
    exact ⟨t, h⟩

/-- Settles O27: the branches of R188, and in `EMPTY` the pull in the state that `REFILL` left. -/
theorem pullAnswersByState : Obligations.PullAnswersByState := by
  refine fun s hidle => ⟨exec_decPull_exhausted hidle, exec_decPull_faulted hidle, exec_decPull_buffered hidle,
    exec_decPull_buffered_last hidle, fun hd => ?_⟩
  obtain ⟨u, hu⟩ := exec_decPull_answers hidle (fun hbuf => absurd (hd.symm.trans hbuf) nofun)
  exact ⟨refillBlock s, u, exec_refill hd hidle, refillBlock_not_empty s,
    (exec_decPull_refillBlock hidle hd).trans hu, hu⟩

/-- Settles O43: with the invariant the window of `BUFFERED` is not empty, so that the pull answers. -/
theorem pullAlwaysAnswersOnce : Obligations.PullAlwaysAnswersOnce := by
  intro s hs hidle
  obtain ⟨-, ⟨hwindow, -⟩, -⟩ := hs
  obtain ⟨t, ht⟩ := exec_decPull_answers hidle fun hbuf => (hwindow hbuf).1
  obtain ⟨-, ⟨r, hr⟩, hsuffix, hlen, -⟩ := decPull_frame ht
  exact ⟨t, r, ht, hr, hsuffix, hlen⟩

/-- Settles O44: only a `Take` of the pull in progress and a pull as one operation take from `dec_in`. -/
theorem decoderIsLazy : Obligations.DecoderIsLazy := by
  intro s t hs h
  obtain ⟨-, hdec⟩ := (blockInv_iff s).mp hs
  have keeps (e : t.decIn = s.decIn) : t.decIn <:+ s.decIn ∧
      (t.decIn ≠ s.decIn → s.decState = .empty ∧ (s.refill ≠ .idle ∨ s.turns.head? = some .pull)) :=
    ⟨e ▸ List.suffix_rfl, fun hne => absurd e hne⟩
  obtain ⟨ts, rfl, -⟩ | ⟨ts, w, ws, -, -, h⟩ | ⟨ts, -, rfl⟩ | ⟨ts, -, -, rfl⟩ | ⟨ts, hbusy, h⟩ | ⟨ts, hturn, -, h⟩ |
    ⟨ts, -, -, -, h⟩ | ⟨ts, -, -, -, rfl⟩ := step_cases h
  · exact keeps rfl
  · obtain ⟨-, frame, -⟩ := encToken_frame h
    exact keeps (by rw [frame])
  · exact keeps rfl
  · exact keeps rfl
  · obtain ⟨-, -, hsuffix⟩ := stepTake_frame h
    obtain ⟨hd, -⟩ := hdec.empty_of_refill hbusy
    exact ⟨hsuffix, fun _ => ⟨hd, .inl hbusy⟩⟩
  · obtain ⟨-, -, hsuffix, -, hd⟩ := decPull_frame h
    exact ⟨hsuffix, fun hne => ⟨hd hne, .inr (by rw [hturn]; rfl)⟩⟩
  · exact keeps (by rw [(answerPull_frame h).1])
  · exact keeps rfl

end Sys2Proof.Machine
end

section
/-! PROOFS. The decoder (spec 43): a pull token by token gives what the pull as one operation gives (R61, R187, R269). -/

namespace Sys2Proof.Machine

variable {s : State} {h : Byte}

theorem takeTimes_succ (n : Nat) (hbusy : s.refill ≠ .idle) :
    takeTimes (n + 1) s = andThen (stepTake s) (takeTimes n) :=
  if_neg hbusy

theorem takeTimes_idle (n : Nat) (hidle : s.refill = .idle) : takeTimes n s = .next s := by
  cases n with
  | zero => rfl
  | succ n => exact if_pos hidle

/-- Once the pull has answered, no further `Take` is made. -/
theorem andThen_answerPull_takeTimes (n : Nat) (hidle : s.refill = .idle) :
    andThen (answerPull s) (takeTimes n) = answerPull s := by
  cases hans : answerPull s with
  | next t => exact takeTimes_idle n (by rw [(answerPull_frame hans).1, hidle])
  | fault r => rfl
  | refused r => rfl

theorem takeBytes_succ_byte {ws rest : List (BitVec 9)} {b : Byte} (n : Nat) (htake : takeWord ws = (some b, rest)) :
    takeBytes (n + 1) ws = (b :: (takeBytes n rest).1, (takeBytes n rest).2) := by
  rw [takeBytes, htake]

theorem closeBlock_refill (vs : List Int) : (closeBlock h vs s).refill = s.refill := by
  rw [closeBlock_frame]

/-- A byte taken inside a block joins its values, and the eighth one closes the block. -/
theorem stepTake_data_byte {vs : List Int} {b : Byte} {ws : List (BitVec 9)} (hr : s.refill = .data h vs)
    (htake : takeWord s.decIn = (some b, ws)) :
    stepTake s =
      if 16 ≤ vs.length + 2 then
        answerPull (closeBlock h (vs ++ unpackAll (shiftOf h) [b]) { s with refill := .idle, decIn := ws })
      else .next { s with refill := .data h (vs ++ unpackAll (shiftOf h) [b]), decIn := ws } := by
  have hop : byteAtPosition s.refill b = decodeData b := by rw [hr, byteAtPosition]
  rw [stepTake_byte htake, hop, dataInstr_exec, dataTaken_eq (s := { s with decIn := ws }) hr]
  rfl

/-- With room for `n + 1` data bytes, at most as many `Take`s end the block as `REFILL` does. -/
theorem takeTimes_data {s : State} {vs : List Int} (n : Nat) (hr : s.refill = .data h vs)
    (hroom : vs.length + 2 * (n + 1) = 16) :
    takeTimes (n + 1) s =
      answerPull (closeBlock h (vs ++ unpackAll (shiftOf h) (takeBytes (n + 1) s.decIn).1)
        { s with refill := .idle, decIn := (takeBytes (n + 1) s.decIn).2 }) := by
  rw [takeTimes_succ n (by simp [hr])]
  obtain ⟨hend, -⟩ | ⟨w, rest, b, -, -, -, htake⟩ := takeWord_cases s.decIn
  · rw [stepTake_end hend, takeBytes_end _ hend, endTaken, hr, unpackAll, List.append_nil]
    exact andThen_answerPull_takeTimes n (closeBlock_refill vs)
  · have hvals : unpackAll (shiftOf h) (b :: (takeBytes n rest).1) =
        unpackAll (shiftOf h) [b] ++ unpackAll (shiftOf h) (takeBytes n rest).1 := unpackAll_append _ [b] _
    rw [stepTake_data_byte hr htake, takeBytes_succ_byte n htake, hvals, ← List.append_assoc]
    cases n with
    | zero =>
      rw [if_pos (by omega), takeBytes, unpackAll, List.append_nil]
      exact andThen_answerPull_takeTimes 0 (closeBlock_refill _)
    | succ n =>
      have hlen : (vs ++ unpackAll (shiftOf h) [b]).length = vs.length + 2 := List.length_append
      rw [if_neg (by omega)]
      exact takeTimes_data (s := { s with refill := .data h (vs ++ unpackAll (shiftOf h) [b]), decIn := rest }) n rfl
        (by omega)

/-- The header's `Take` and then at most eight of data bytes do what `REFILL` does. -/
theorem takeTimes_header (hr : s.refill = .header) :
    takeTimes 9 s = answerPull (refillBlock { s with refill := .idle }) := by
  rw [takeTimes_succ 8 (by simp [hr])]
  obtain ⟨hend, -⟩ | ⟨w, ws, h, -, -, -, htake⟩ := takeWord_cases s.decIn
  · rw [stepTake_end hend, refillBlock_end (s := { s with refill := .idle }) hend, endTaken, hr]
    exact andThen_answerPull_takeTimes 8 rfl
  · have hop : byteAtPosition s.refill h = decodeHeader h := by rw [hr, byteAtPosition]
    rw [stepTake_byte htake, hop, headerInstr_exec]
    cases hres : reservedShift (shiftOf h) with
    | true =>
      rw [headerTaken_reserved (s := { s with decIn := ws }) hr hres,
        refillBlock_reserved (s := { s with refill := .idle }) htake hres, answerPull_faulted rfl]
      exact takeTimes_idle 8 rfl
    | false =>
      rw [headerTaken_legal (s := { s with decIn := ws }) hr hres,
        refillBlock_legal (s := { s with refill := .idle }) htake hres]
      exact takeTimes_data (s := { s with refill := .data h [], decIn := ws }) 7 rfl rfl

/-- Settles O39: both ways give the answer of the state that `REFILL` leaves. -/
theorem pullByTokenRefinesPull : Obligations.PullByTokenRefinesPull := by
  intro s hd hidle
  obtain ⟨t, ht⟩ := exec_decPull_answers hidle (fun hbuf => absurd (hd.symm.trans hbuf) nofun)
  have hsame : { s with refill := .idle } = s := by rw [← hidle]
  refine ⟨t, ht, ?_, by rw [(decPull_frame ht).1, hidle]⟩
  calc takeTimes 9 { s with refill := .header }
      _ = answerPull (refillBlock { s with refill := .idle }) := takeTimes_header rfl
      _ = exec .decPull s := by rw [hsame, exec_decPull_empty hidle hd]
      _ = .next t := ht

end Sys2Proof.Machine
end

section
/-! PROOFS. The decoder (spec 43): the decoder agrees with the stream function (R191). -/

namespace Sys2Proof.Machine

variable {s t : State} {o : Response} {vs : List Sample}

/-! ### Runs of pulls -/

theorem pullTimes_succ_of_next (n : Nat) (h : exec .decPull s = .next t) : pullTimes (n + 1) s = pullTimes n t := by
  rw [pullTimes, h]
  rfl

theorem pullTimes_add {m : Nat} (n : Nat) (h : pullTimes m s = .next t) : pullTimes (m + n) s = pullTimes n t := by
  induction m generalizing s with
  | zero => cases h; rw [Nat.zero_add]
  | succ m ih =>
    rw [Nat.succ_add, pullTimes]
    rw [pullTimes] at h
    cases hpull : exec .decPull s with
    | next u => rw [hpull] at h; exact ih h
    | fault r => rw [hpull] at h; cases h
    | refused r => rw [hpull] at h; cases h

/-- The first pull in `EMPTY` is a pull in the state that `REFILL` leaves (R188). -/
theorem pullTimes_succ_refillBlock (n : Nat) (hidle : s.refill = .idle) (hd : s.decState = .empty) :
    pullTimes (n + 1) (refillBlock s) = pullTimes (n + 1) s := by
  rw [pullTimes, pullTimes, exec_decPull_refillBlock hidle hd]

/-- The answers to `n` pulls: the first `n` samples, and the end for every further pull. -/
def responses (d : List Sample × Response) (n : Nat) : List Response :=
  (d.1.map Response.sample).take n ++ List.replicate (n - d.1.length) d.2

theorem responses_nil (o : Response) (n : Nat) : responses ([], o) n = List.replicate n o := by
  simp [responses]

theorem responses_of_le {n : Nat} (ys : List Sample) (h : n ≤ vs.length) :
    responses (vs ++ ys, o) n = (vs.take n).map .sample := by
  have hlast : n - (vs.length + ys.length) = 0 := by omega
  simp [responses, List.take_append_of_le_length, List.map_take, h, hlast]

theorem responses_append (vs ys : List Sample) (o : Response) (n : Nat) :
    responses (vs ++ ys, o) (vs.length + n) = vs.map .sample ++ responses (ys, o) n := by
  simp [responses, List.take_append, Nat.add_sub_add_left]

/-! ### A run that is over -/

/-- The decoder's run is over, and `o` is the answer to every further pull (R188, R270). -/
def EndedWith (o : Response) (s : State) : Prop :=
  s.refill = .idle ∧
    (s.decState = .exhausted ∧ o = .exhausted ∨ s.decState = .faulted ∧ o = .fault s.decCause s.decInfo)

theorem EndedWith.decPull (h : EndedWith o s) : exec .decPull s = .next { s with decOut := s.decOut ++ [o] } := by
  obtain ⟨hidle, ⟨hd, rfl⟩ | ⟨hd, rfl⟩⟩ := h
  · exact exec_decPull_exhausted hidle hd
  · exact exec_decPull_faulted hidle hd

theorem EndedWith.pullTimes (h : EndedWith o s) (n : Nat) :
    pullTimes n s = .next { s with decOut := s.decOut ++ List.replicate n o } := by
  induction n generalizing s with
  | zero => rw [List.replicate_zero, List.append_nil]; rfl
  | succ n ih =>
    have hnext : EndedWith o { s with decOut := s.decOut ++ [o] } := h
    rw [pullTimes_succ_of_next n h.decPull, ih hnext, List.replicate_succ, List.append_assoc, List.singleton_append]

/-! ### A buffered block -/

/-- `vs` are the samples still to be delivered from `SB`, and after the last of them the decoder is in `EMPTY` (R33). -/
structure HasBuffered (vs : List Sample) (s : State) : Prop where
  idle : s.refill = .idle
  state : s.decState = if vs = [] then .empty else .buffered
  window : (s.sb.toList.take s.decCnt.val).drop s.decRd.val = vs

theorem HasBuffered.length_eq (h : HasBuffered vs s) : vs.length = s.decCnt.val - s.decRd.val := by
  rw [← h.window, List.length_drop, List.length_take, Vector.length_toList, Nat.min_eq_left (by omega)]

/-- A pull delivers the first of them. -/
theorem HasBuffered.decPull {v : Sample} (h : HasBuffered (v :: vs) s) : ∃ t,
    exec .decPull s = .next t ∧ HasBuffered vs t ∧ t.decOut = s.decOut ++ [.sample v] ∧ t.decIn = s.decIn := by
  have hlen := h.length_eq
  rw [List.length_cons] at hlen
  have hd : s.decState = .buffered := h.state
  have hwindow := h.window
  have hlt : s.decRd.val < (s.sb.toList.take s.decCnt.val).length := by
    rw [List.length_take, Vector.length_toList]; omega
  rw [List.drop_eq_getElem_cons hlt] at hwindow
  obtain ⟨hv, hvs⟩ := List.cons.inj hwindow
  have hentry : s.sb[s.decRd] = v := by simpa using hv
  by_cases hnil : vs = []
  · have hlast : s.decRd.val + 1 = s.decCnt.val := by rw [hnil, List.length_nil] at hlen; omega
    refine ⟨_, exec_decPull_buffered_last h.idle hd hlast, ⟨h.idle, by rw [if_pos hnil], ?_⟩, by rw [hentry], rfl⟩
    exact hnil.symm
  · have hpos := List.length_pos_iff.mpr hnil
    have hmore : s.decRd.val + 1 < s.decCnt.val := by omega
    refine ⟨_, exec_decPull_buffered h.idle hd hmore, ⟨h.idle, by rw [if_neg hnil, hd], ?_⟩, by rw [hentry], rfl⟩
    rw [decRd_succ hmore]
    exact hvs

theorem HasBuffered.pullTimes {n : Nat} (h : HasBuffered vs s) (hn : n ≤ vs.length) : ∃ t,
    pullTimes n s = .next t ∧ HasBuffered (vs.drop n) t ∧ t.decOut = s.decOut ++ (vs.take n).map .sample ∧
      t.decIn = s.decIn := by
  induction n generalizing s vs with
  | zero => exact ⟨s, rfl, h, (List.append_nil _).symm, rfl⟩
  | succ n ih =>
    obtain ⟨v, vs, rfl⟩ := List.exists_cons_of_length_pos (Nat.zero_lt_of_lt hn)
    obtain ⟨t, hpull, ht, hout, hin⟩ := h.decPull
    obtain ⟨u, hpulls, hu, hout', hin'⟩ := ih ht (Nat.le_of_succ_le_succ hn)
    refine ⟨u, (pullTimes_succ_of_next n hpull).trans hpulls, hu, ?_, hin'.trans hin⟩
    rw [hout', hout, List.append_assoc]
    rfl

/-- As many pulls as there are samples deliver them all and leave the decoder in `EMPTY`. -/
theorem HasBuffered.pullTimes_length (h : HasBuffered vs s) : ∃ t,
    Machine.pullTimes vs.length s = .next t ∧ t.decState = .empty ∧ t.refill = .idle ∧
      t.decOut = s.decOut ++ vs.map .sample ∧ t.decIn = s.decIn := by
  obtain ⟨t, hpulls, ht, hout, hin⟩ := h.pullTimes le_rfl
  rw [List.drop_length] at ht
  rw [List.take_length] at hout
  exact ⟨t, hpulls, ht.state, ht.idle, hout, hin⟩

/-- The end of a refill with one to sixteen values, each in `i16`, leaves them all to be delivered. -/
theorem hasBuffered_closeBlock {ws : List Int} (h : Byte) (hidle : s.refill = .idle) (hne : ws ≠ [])
    (hlen : ws.length ≤ 16) (hin : firstOverflow ws = none) : HasBuffered (ws.map toSample) (closeBlock h ws s) := by
  rw [closeBlock_buffered s hne hin]
  refine ⟨hidle, by simp [hne], ?_⟩
  have hcnt : (Fin.ofNat 17 ws.length).val = ws.length := Nat.mod_eq_of_lt (by omega)
  dsimp only
  rw [hcnt]
  refine List.ext_getElem (by simp [hlen]) fun i hi hi' => ?_
  rw [List.length_map] at hi'
  simpa using storeFrom_zero_getElem s.sb (by omega) hi'

/-! ### A refill and the first block of the stream function -/

/-- What `REFILL` does with the bytes `bs`, beside what `decode` makes of them: both end alike, or the samples of the
block are buffered, and what follows the block is left to be taken. -/
theorem refillBlock_decodeStream {bs : List Byte} {rest : List (BitVec 9)} (hidle : s.refill = .idle)
    (hin : s.decIn = wordsOf bs ++ rest) (hend : answersEnd rest = true) :
    (∃ o, decodeStream bs = ([], o) ∧ EndedWith o (refillBlock s)) ∨
    ∃ vs, vs ≠ [] ∧ (vs.length = 16 ∨ vs.length < 16 ∧ bs.drop 9 = []) ∧ HasBuffered vs (refillBlock s) ∧
      (refillBlock s).decIn = wordsOf (bs.drop 9) ++ rest ∧
      decodeStream bs = (vs ++ (decodeStream (bs.drop 9)).1, (decodeStream (bs.drop 9)).2) := by
  cases bs with
  | nil =>
    left
    rw [refillBlock_end (by rw [hin]; exact hend)]
    exact ⟨_, decodeStream_nil, hidle, .inl ⟨rfl, rfl⟩⟩
  | cons h ds =>
    cases hres : reservedShift (shiftOf h) with
    | true =>
      left
      rw [refillBlock_reserved (hin ▸ takeWord_wordsOf h ds rest) hres]
      exact ⟨_, decodeStream_reserved hres, hidle, .inr ⟨rfl, rfl⟩⟩
    | false =>
      rw [refillBlock_wordsOf hin (.inr hend) hres, List.drop_succ_cons]
      cases hover : firstOverflow (unpackAll (shiftOf h) (ds.take 8)) with
      | some j =>
        left
        rw [closeBlock_overflow _ hover]
        exact ⟨_, decodeStream_overflow hres hover, hidle, .inr ⟨rfl, rfl⟩⟩
      | none =>
        rw [decodeStream_inI16 hres hover]
        by_cases hnil : ds = []
        · left
          rw [hnil]
          exact ⟨_, rfl, hidle, .inl ⟨rfl, rfl⟩⟩
        · right
          have hpos := List.length_pos_iff.mpr hnil
          have hlen := unpackAll_length (shiftOf h) (ds.take 8)
          rw [List.length_take] at hlen
          refine ⟨_, ?_, ?_, hasBuffered_closeBlock h hidle ?_ (by omega) hover, by rw [closeBlock_frame], rfl⟩
          · exact List.ne_nil_of_length_pos (by rw [List.length_map]; omega)
          · rw [List.length_map, List.drop_eq_nil_iff]; omega
          · exact List.ne_nil_of_length_pos (by omega)

/-- `n` pulls, by the block that holds the first of the samples: its own samples, and then those behind it. -/
theorem pullTimes_decodeStream {bs : List Byte} {rest : List (BitVec 9)} {n : Nat} (hd : s.decState = .empty)
    (hidle : s.refill = .idle) (hin : s.decIn = wordsOf bs ++ rest) (hend : answersEnd rest = true) :
    ∃ t, pullTimes n s = .next t ∧ t.decOut = s.decOut ++ responses (decodeStream bs) n ∧
      (n ≤ (decodeStream bs).1.length → t.decIn = wordsOf (bs.drop (9 * ((n + 15) / 16))) ++ rest) := by
  induction n using Nat.strong_induction_on generalizing s bs with
  | h n ih =>
    cases n with
    | zero => exact ⟨s, rfl, by simp [responses], fun _ => hin⟩
    | succ m =>
      rw [← pullTimes_succ_refillBlock m hidle hd, ← refillBlock_decOut s]
      obtain ⟨o, hdec, hended⟩ | ⟨vs, hne, hlen, hbuf, hleft, hdec⟩ := refillBlock_decodeStream hidle hin hend
      · rw [hdec, responses_nil]
        exact ⟨_, hended.pullTimes _, rfl, fun hn => absurd hn (Nat.not_succ_le_zero m)⟩
      · rw [hdec]
        have hpos := List.length_pos_iff.mpr hne
        by_cases hn : m + 1 ≤ vs.length
        · obtain ⟨t, hpulls, -, hout, hin'⟩ := hbuf.pullTimes hn
          refine ⟨t, hpulls, by rw [hout, responses_of_le _ hn], fun _ => ?_⟩
          rw [hin', hleft, show 9 * ((m + 1 + 15) / 16) = 9 by omega]
        · obtain ⟨k, hk⟩ : ∃ k, m + 1 = vs.length + k := Nat.exists_eq_add_of_le (by omega)
          obtain ⟨t, hpulls, hempty, hidle', hout, hin'⟩ := hbuf.pullTimes_length
          obtain ⟨u, hpulls', hout', hin''⟩ := ih k (by omega) hempty hidle' (hin'.trans hleft)
          rw [hk, responses_append]
          refine ⟨u, (pullTimes_add k hpulls).trans hpulls', by rw [hout', hout, List.append_assoc], fun hle => ?_⟩
          rw [List.length_append, Nat.add_le_add_iff_left] at hle
          rw [hin'' hle, List.drop_drop]
          obtain h16 | ⟨-, hnil⟩ := hlen
          · rw [h16, show 9 + 9 * ((k + 15) / 16) = 9 * ((16 + k + 15) / 16) by omega]
          · rw [hnil, decodeStream_nil] at hle
            have hzero : k ≤ 0 := hle
            omega

/-- Settles O28, by strong induction on the number of pulls, which goes on behind the first block. -/
theorem decoderAgreesWithTheStreamFunction : Obligations.DecoderAgreesWithTheStreamFunction := by
  intro bs rest n s hd hidle hin hend
  obtain ⟨t, hpulls, hout, htaken⟩ := pullTimes_decodeStream (n := n) hd hidle hin hend
  exact ⟨_, _, t, exec_decode rfl s, hpulls, hout.trans (List.append_assoc ..).symm, htaken⟩

end Sys2Proof.Machine
end

section
/-! PROOFS. The exceptions (spec 60): a header byte with a reserved shift (R222, R226). -/

namespace Sys2Proof.Machine

variable {s : State}

theorem faultInfo_zero_joinNibs (k low : Nib) : faultInfo 0 (joinNibs k low) = (0#4 ++ k) ++ low :=
  (BitVec.append_assoc (x₁ := 0#4) (x₂ := k) (x₃ := low)).symm

/-- A reserved shift faults with index 0 and the header byte, whatever its low nibble. -/
theorem headerTaken_reserved_joinNibs {k : Nib} (low : Nib) (hr : s.refill = .header)
    (hk : reservedShift k.toNat = true) :
    headerTaken (joinNibs k low) s = .next
      { s with
        refill := .idle, decCause := .reservedShift, decInfo := (0#4 ++ k) ++ low, decState := .faulted, decRd := 0,
        decCnt := 0, decOut := s.decOut ++ [.fault .reservedShift ((0#4 ++ k) ++ low)] } := by
  rw [headerTaken_reserved hr (by rw [shiftOf, hiNib_joinNibs, hk]), faultInfo_zero_joinNibs]

/-- Settles O34: the two rows are the header bytes of the shifts 0 and 15, and both of these are reserved. -/
theorem reservedHeaderFaults : Obligations.ReservedHeaderFaults := fun low _ hr =>
  ⟨headerTaken_reserved_joinNibs (k := 0#4) low hr rfl, headerTaken_reserved_joinNibs (k := 15#4) low hr rfl⟩

end Sys2Proof.Machine
end

section
/-! PROOFS. The exceptions (spec 60): a block with a value outside `i16` (R223, R225, R226). -/

namespace Sys2Proof.Machine

variable {s : State} {h : Byte} {vs : List Int} {j : Nat} {v : Int}

/-- Where value `j` of a closed block is the first outside `i16`, the pull answers the fault with that index. -/
theorem answerPull_closeBlock_overflow (hj : vs[j]? = some v) (hv : ¬ (-32768 ≤ v ∧ v ≤ 32767))
    (hlt : ∀ i w, i < j → vs[i]? = some w → -32768 ≤ w ∧ w ≤ 32767) :
    answerPull (closeBlock h vs s) = .next
      { s with
        decCause := .overflow, decInfo := faultInfo j h, decState := .faulted, decRd := 0, decCnt := 0,
        decOut := s.decOut ++ [.fault .overflow (faultInfo j h)] } := by
  rw [closeBlock_overflow s (firstOverflow_some hj hv hlt)]
  exact answerPull_faulted rfl

theorem exec_data_eighth_overflow {hi lo : Nib} (hr : s.refill = .data h vs) (hv : ¬ (-32768 ≤ v ∧ v ≤ 32767))
    (h14 : vs.length = 14) (hj : (withDataByte h vs hi lo)[j]? = some v)
    (hlt : ∀ i w, i < j → (withDataByte h vs hi lo)[i]? = some w → -32768 ≤ w ∧ w ≤ 32767) :
    exec (.data hi lo) s = .next
      { s with
        refill := .idle, decCause := .overflow, decInfo := faultInfo j h, decState := .faulted, decRd := 0,
        decCnt := 0, decOut := s.decOut ++ [.fault .overflow (faultInfo j h)] } := by
  rw [exec_data hi lo hr, if_pos (by omega)]
  exact answerPull_closeBlock_overflow hj hv hlt

/-- Settles O37: the eighth data byte closes the block with its own two values, an `End` closes the block as it is. -/
theorem overflowFaultsWithTheLeastIndex : Obligations.OverflowFaultsWithTheLeastIndex := by
  refine fun h vs j v s hr hv => ⟨fun _ _ => exec_data_eighth_overflow hr hv, fun ts hturn hend hj hlt => ?_⟩
  rw [step_dec_end hturn (by simp [hr]) hend, endTaken, hr]
  exact answerPull_closeBlock_overflow hj hv hlt

end Sys2Proof.Machine
end

section
/-! PROOFS. The exceptions (spec 60): the states `EXHAUSTED` and `FAULTED` (R194, R227). -/

namespace Sys2Proof.Machine

variable {s t : State}

/-- In `EXHAUSTED` and `FAULTED` an answer to a pull changes nothing but `dec_out`. -/
theorem answerPull_terminal (hd : s.decState = .exhausted ∨ s.decState = .faulted) (h : answerPull s = .next t) :
    t = { s with decOut := t.decOut } := by
  obtain hd | hd := hd
  · cases (answerPull_exhausted hd).symm.trans h
    rfl
  · cases (answerPull_faulted hd).symm.trans h
    rfl

/-- Settles O32: no refill is in progress there and a pull begins none, so that `DEC` only answers. -/
theorem terminalDecoderStatesAreLeftByResetOnly : Obligations.TerminalDecoderStatesAreLeftByResetOnly := by
  intro s t hs h hterm
  obtain ⟨-, hdec⟩ := (blockInv_iff s).mp hs
  have hnotEmpty : s.decState ≠ .empty := by
    obtain hd | hd := hterm <;> simp [hd]
  obtain ⟨ts, rfl, -⟩ | ⟨ts, w, ws, -, -, h⟩ | ⟨ts, -, rfl⟩ | ⟨ts, hturn, -⟩ | ⟨ts, hbusy, -⟩ | ⟨ts, -, hidle, h⟩ |
    ⟨ts, -, -, -, h⟩ | ⟨ts, -, -, hd, -⟩ := step_cases h
  · exact .inl ⟨rfl, rfl, rfl, rfl, rfl⟩
  · obtain ⟨-, frame, -⟩ := encToken_frame h
    rw [frame]
    exact .inl ⟨rfl, rfl, rfl, rfl, rfl⟩
  · exact .inl ⟨rfl, rfl, rfl, rfl, rfl⟩
  · exact .inr (by rw [hturn]; rfl)
  · exact absurd (hdec.empty_of_refill hbusy).1 hnotEmpty
  · have hans := (exec_decPull_not_empty (s := { s with turns := ts }) hidle hnotEmpty).symm.trans h
    rw [answerPull_terminal (s := { s with turns := ts }) hterm hans]
    exact .inl ⟨rfl, rfl, rfl, rfl, rfl⟩
  · rw [answerPull_terminal (s := { s with turns := ts }) hterm h]
    exact .inl ⟨rfl, rfl, rfl, rfl, rfl⟩
  · exact absurd hd hnotEmpty

end Sys2Proof.Machine
end

section
/-! PROOFS. The exceptions (spec 60): an encoded stream decodes without a fault (R228, R263). -/

namespace Sys2Proof.Machine

/-- The block of a full frame decodes on its own, and decoding goes on behind it. -/
theorem decodeStream_encodeFrame_append {f : List Sample} (hfull : f.length = 16) (bs : List Byte) :
    ∃ ys, decodeStream (encodeFrame f ++ bs) = (ys ++ (decodeStream bs).1, (decodeStream bs).2) := by
  have hlen : (packSeq (nibblesOf f (select f))).length = 8 := by rw [packSeq_nibblesOf_length, hfull]
  have hok := blockOk_encodeFrame (List.ne_nil_of_length_pos (l := f) (by omega))
  rw [encodeFrame, List.cons_append, decodeStream_of_blockOk (by rwa [List.take_left' hlen]), List.drop_left' hlen]
  exact ⟨_, rfl⟩

/-- The pad nibble of an odd last frame decodes to a 0 behind every sample. -/
theorem decodeStream_encodeStream_getLast? {xs : List Sample} (hodd : xs.length % 2 = 1) :
    (decodeStream (encodeStream xs)).1.getLast? = some 0#16 := by
  induction xs using chunk_induction (n := 16) (by decide) with
  | nil => cases hodd
  | chunk xs hne ih =>
    by_cases h16 : xs.length ≤ 16
    · rw [encodeStream_short hne h16, decodeStream_encodeFrame (by omega) h16, if_pos hodd, List.getLast?_concat]
    · obtain ⟨ys, hys⟩ := decodeStream_encodeFrame_append (f := xs.take 16) (List.length_take_of_le (by omega))
        (encodeStream (xs.drop 16))
      rw [encodeStream_cons hne, hys, List.getLast?_append, ih (by rw [List.length_drop]; omega), Option.some_or]

/-- Settles O30: an encoded stream is well formed, so that it decodes to two samples for each data byte. -/
theorem encodedStreamsDecodeWithoutFault : Obligations.EncodedStreamsDecodeWithoutFault := by
  intro xs s
  obtain ⟨hend, hlen⟩ := decodeStream_of_wellFormed (wellFormedStream_encodeStream xs)
  have hdec : decodeStream (encodeStream xs) = ((decodeStream (encodeStream xs)).1, .exhausted) := Prod.ext rfl hend
  refine ⟨_, _, exec_encode xs s, exec_decode hdec s, ?_, decodeStream_encodeStream_getLast?⟩
  rw [hlen, encodeStream_length]
  split <;> omega

end Sys2Proof.Machine
end

section
/-! PROOFS. Reset and hazards (spec 70): a finished encoder takes no token (R256). -/

namespace Sys2Proof.Machine

/-- A T17 word is one of the two tokens, and a finished encoder refuses both. -/
theorem exec_decodeT17_finished {s : State} (w : BitVec 17) (hdone : s.encDone = true) :
    exec (decodeT17 w) s = .refused .encoderFinished := by
  obtain ⟨x, hw⟩ | ⟨ignored, hw⟩ := decodeT17_cases w <;> rw [hw]
  · exact exec_encPush_finished x hdone
  · exact exec_encEnd_finished ignored hdone

/-- Settles O20: the step that offers a token runs the operation that the token decodes to. -/
theorem finishedEncoderRefusesTokens : Obligations.FinishedEncoderRefusesTokens := by
  refine ⟨fun x ignored s hdone => ⟨exec_encPush_finished x hdone, exec_encEnd_finished ignored hdone⟩,
    fun s w ws ts hdone hturn hin => ?_⟩
  rw [step_enc hturn hin]
  exact exec_decodeT17_finished w hdone

end Sys2Proof.Machine
end

section
/-! PROOFS. Reset and hazards (spec 70): the resets of the two units (R250, R251, R252). -/

namespace Sys2Proof.Machine

variable {s : State} {ts : List Turn}

theorem step_resetEnc (hturn : s.turns = .resetEnc :: ts) : step s = .next (resetEnc { s with turns := ts }) := by
  rw [step, runTurn, hturn]

theorem step_resetDec (hturn : s.turns = .resetDec :: ts) (hidle : s.refill = .idle) :
    step s = .next (resetDec { s with turns := ts }) := by
  simp [step, runTurn, hturn, hidle]

/-- Inside a pull a reset of `DEC` has no step (R252). -/
theorem step_resetDec_inside_pull (hturn : s.turns = .resetDec :: ts) (hbusy : s.refill ≠ .idle) :
    step s = .refused .resetInsideOperation := by
  simp [step, runTurn, hturn, hbusy]

/-- Settles O52: each reset writes the fields of its own unit that R250 gives a value, and no other field. -/
theorem unitResetsTouchTheirUnitOnly : Obligations.UnitResetsTouchTheirUnitOnly :=
  fun _ _ => ⟨step_resetEnc, step_resetDec, step_resetDec_inside_pull⟩

end Sys2Proof.Machine
end

section
/-! PROOFS. Reset and hazards (spec 70): a block with nothing to do is idle (R270). -/

namespace Sys2Proof.Machine

variable {s : State} {ts : List Turn}

theorem step_no_turn (hturn : s.turns = []) (hidle : s.refill = .idle) : step s = .next s := by
  simp [step, runTurn, hturn, hidle]

theorem step_enc_no_token (hturn : s.turns = .enc :: ts) (hin : s.encIn = []) : step s = .next { s with turns := ts } := by
  simp [step, runTurn, stepEnc, hturn, hin]

theorem step_dec_no_pull (hturn : s.turns = .dec :: ts) (hidle : s.refill = .idle) :
    step s = .next { s with turns := ts } := by
  simp [step, runTurn, hturn, hidle]

/-- Settles O60: the idle case of each of the three turns. -/
theorem idleBlockStandsStill : Obligations.IdleBlockStandsStill :=
  fun _ _ => ⟨step_no_turn, step_enc_no_token, step_dec_no_pull⟩

end Sys2Proof.Machine
end
